-- ==== Sys2Proof/Word.lean ====
section
/-! DEFINITION. The two word widths of the block: a byte (00_scope.md R9) and the nine bits of the frame counters
(00_scope.md R11). `b[n]` of R14 is `b.getLsbD n`, `+8` of R15 is `+` of `Byte`, `zext_9` is `setWidth 9`. -/
namespace Sys2Proof

/-- One input unit, and the width of every decoded field (R9). -/
abbrev Byte := BitVec 8

/-- The width of `pos`, `tot`, `ev_cnt`, `ud_off` and `need` (R11, R33). -/
abbrev Count := BitVec 9

end Sys2Proof
end

