-- ==== Sys2Proof/Config.lean ====
section
/-! DEFINITION. What an implementation fixes: the type of the parameter `CONTROL_TABLE` (00_scope.md R12), the only
parameter of the block (R13). Its laws are in WellFormed.lean, its default value in Decode.lean; the value a machine was
built with stands in its state (log 4). Also the model's two free values (log 6). -/
namespace Sys2Proof

/-- A decoded control field: the five variants with the flags each carries (41_control_decoder.md R111 to R116). -/
inductive Control where
  | sndNke
  | sndUd (fcb : Bool)
  | reqUd1 (fcb : Bool)
  | reqUd2 (fcb : Bool)
  | rspUd (acd dfc : Bool)
  deriving DecidableEq, Repr, Inhabited

/-- One row of `CONTROL_TABLE`: an accepted byte, and the variant and flags it maps to (R12, R110). -/
structure ControlRow where
  code : Byte
  control : Control
  deriving DecidableEq, Repr

/-- A value of the parameter `CONTROL_TABLE` (R12). -/
abbrev ControlTable := List ControlRow

/-- FREE VALUE (log 6). What the `Ctrl` outputs read as for a byte the table rejects: "with `var` and the flags any
value" (41_control_decoder.md R117, 93_implementation_defined.md U7). Only a state no run reaches asks for it. -/
opaque Config.unlistedControl : Byte → Control

/-- FREE VALUE (log 6). The byte of a control value that a table does not map any byte to: no value of `CONTROL_TABLE`
lacks one (41_control_decoder.md R118), so only a state with a table that is none asks for it. -/
opaque Config.unlistedCode : Control → Byte

end Sys2Proof
end

