-- ==== Sys2Proof/Syntax.lean ====
section
/-! DEFINITION. The code map of spec/opcode_table.json as one inductive, a constructor per row (00_scope.md R4: the
"instructions" are the byte codes the block decodes), and the wire formats of 30_encoding.md R70. -/
namespace Sys2Proof

/-- The nine rows of the code map, with the flag bits the control rows carry as operands. -/
inductive Instr where
  /-- `SINGLE_CHARACTER`, R132. -/
  | singleCharacter
  /-- `SHORT_FRAME`, R133. -/
  | shortFrame
  /-- `LONG_CONTROL_FRAME`, R134. -/
  | longControlFrame
  /-- `STOP`, R157. -/
  | stop
  /-- `SND_NKE`, R112. -/
  | sndNke
  /-- `SND_UD`, R113. -/
  | sndUd (fcb : Bool)
  /-- `REQ_UD1`, R114. -/
  | reqUd1 (fcb : Bool)
  /-- `REQ_UD2`, R115. -/
  | reqUd2 (fcb : Bool)
  /-- `RSP_UD`, R116. -/
  | rspUd (acd dfc : Bool)
  deriving DecidableEq, Repr

/-- The control value a control code stands for; a start or stop code stands for none. -/
def Instr.control? : Instr → Option Control
  | .singleCharacter => none
  | .shortFrame => none
  | .longControlFrame => none
  | .stop => none
  | .sndNke => some .sndNke
  | .sndUd f => some (.sndUd f)
  | .reqUd1 f => some (.reqUd1 f)
  | .reqUd2 f => some (.reqUd2 f)
  | .rspUd a d => some (.rspUd a d)

/-- The three wire formats (30_encoding.md R70), by the fields a sender chooses. The block never emits a frame
(00_scope.md R6); this is the language its parser reads. -/
inductive Frame where
  /-- `E5` (R71). -/
  | singleCharacter
  /-- `10 C A CS 16` (R72). -/
  | short (control address : Byte)
  /-- `68 L L 68 C A rest CS 16` (R73): `rest` is empty (L = 2), or the control information and then the user data. -/
  | long (control address : Byte) (rest : List Byte)
  deriving DecidableEq, Repr

end Sys2Proof
end

