-- ==== Sys2Proof/WellFormed.lean ====
section
/-! DEFINITION. The checks: the laws of a `CONTROL_TABLE` value (41_control_decoder.md R118), an instruction's row
being in the table in force, and a frame's fields fitting its format (30_encoding.md R72, R73). -/
namespace Sys2Proof

/-- The bytes a table maps to one control value. -/
def ControlTable.codesOf (t : ControlTable) (c : Control) : List Byte :=
  (t.filter (fun row => row.control == c)).map ControlRow.code

/-- The control value a table maps a byte to; matching is "exact equality" of the whole byte (R117, R118). -/
def ControlTable.lookup (t : ControlTable) (b : Byte) : Option Control :=
  (t.find? (fun row => row.code == b)).map ControlRow.control

/-- R118 (1): eleven distinct bytes. -/
def ControlTable.elevenDistinct (t : ControlTable) : Bool :=
  t.length == 11 && decide (t.map ControlRow.code).Nodup

/-- R118 (2): SndNke has one byte. -/
def ControlTable.oneSndNke (t : ControlTable) : Bool :=
  (t.codesOf .sndNke).length == 1

/-- R118 (3): a variant with `fcb` has two bytes differing only in bit 5, with `fcb = b[5]`. -/
def ControlTable.fcbPair (t : ControlTable) (variant : Bool → Control) : Bool :=
  match t.codesOf (variant false), t.codesOf (variant true) with
  | [b0], [b1] => !b0.getLsbD 5 && b1 == b0 ^^^ 0x20#8
  | _, _ => false

/-- R118 (4): RspUd has four bytes differing only in bits 5 and 4, with `acd = b[5]` and `dfc = b[4]`. -/
def ControlTable.rspUdQuad (t : ControlTable) : Bool :=
  match t.codesOf (.rspUd false false), t.codesOf (.rspUd false true),
      t.codesOf (.rspUd true false), t.codesOf (.rspUd true true) with
  | [b00], [b01], [b10], [b11] =>
    !b00.getLsbD 5 && !b00.getLsbD 4
      && b01 == b00 ^^^ 0x10#8 && b10 == b00 ^^^ 0x20#8 && b11 == b00 ^^^ 0x30#8
  | _, _, _, _ => false

/-- R118, last sentence: "The bytes 0x40, 0x53 and 0x7B must keep the source's variants." -/
def ControlTable.keepsSourceBytes (t : ControlTable) : Bool :=
  t.lookup 0x40#8 == some .sndNke && t.lookup 0x53#8 == some (.sndUd false)
    && t.lookup 0x7B#8 == some (.reqUd1 true)

/-- Every condition R118 puts on a value of the parameter. -/
def ControlTable.lawful (t : ControlTable) : Bool :=
  t.elevenDistinct && t.oneSndNke && t.fcbPair .sndUd && t.fcbPair .reqUd1 && t.fcbPair .reqUd2
    && t.rspUdQuad && t.keepsSourceBytes

/-- An instruction is well formed under a table when the table has a row for the control value it stands for. Start and
stop codes do not depend on the table. -/
def Instr.wellFormed (t : ControlTable) (i : Instr) : Bool :=
  i.control?.all (fun c => t.any (fun row => row.control == c))

/-- The control byte of a frame is one the table accepts (R72, R73). -/
def Frame.controlAccepted (t : ControlTable) : Frame → Bool
  | .singleCharacter => true
  | .short c _ => (t.lookup c).isSome
  | .long c _ _ => (t.lookup c).isSome

/-- The declared length fits its one byte (R74): control, address and `rest` are at most 255 bytes. -/
def Frame.lengthFits : Frame → Bool
  | .singleCharacter => true
  | .short _ _ => true
  | .long _ _ rest => decide (rest.length + 2 ≤ 255)

/-- A frame that a sender can put on the wire. -/
def Frame.wellFormed (t : ControlTable) (f : Frame) : Bool :=
  f.controlAccepted t && f.lengthFits

end Sys2Proof
end

