-- ==== Sys2Proof/Decode.lean ====
section
/-! DEFINITION. The code map: a decoder that is total on any bytes and rejects by name, and after it the encoders, both
written from 30_encoding.md R70 to R77 and spec/opcode_table.json. A code is one byte (R83: no prefixes, no mode bits).
Which bytes the control codes have is the `CONTROL_TABLE` in force (00_scope.md R12), an argument of both.
What a code does depends on the state it is accepted in (44_stream_fsm.md R180): that is the machine's part, and a byte
with no code is still accepted there (log 9). -/
namespace Sys2Proof

/-- One row of the code map: the byte matches when its masked bits equal the pattern. -/
structure CodeRow where
  mask : Byte
  pattern : Byte
  instr : Byte → Instr

/-- The default `CONTROL_TABLE` (41_control_decoder.md R110). The rows of ReqUd2 and RspUd are the spec's decision D8,
not the source's (log 4). -/
def defaultControlTable : ControlTable :=
  [ ⟨0x40#8, .sndNke⟩,
    ⟨0x53#8, .sndUd false⟩,
    ⟨0x73#8, .sndUd true⟩,
    ⟨0x5B#8, .reqUd1 false⟩,
    ⟨0x7B#8, .reqUd1 true⟩,
    ⟨0x5A#8, .reqUd2 false⟩,
    ⟨0x7A#8, .reqUd2 true⟩,
    ⟨0x08#8, .rspUd false false⟩,
    ⟨0x18#8, .rspUd false true⟩,
    ⟨0x28#8, .rspUd true false⟩,
    ⟨0x38#8, .rspUd true true⟩ ]

/-- The byte that a table maps to a control value: there is exactly one (41_control_decoder.md R118). For a table that has
none it is a free value (log 6). -/
def ControlTable.codeOf (t : ControlTable) (c : Control) : Byte :=
  match t.codesOf c with
  | b :: _ => b
  | [] => Config.unlistedCode c

/-- The nine rows of spec/opcode_table.json, in its order (R80 for the start codes, R73 for the stop code). The control
codes have their pattern from the table, with every flag 0, and the flags are bits 5 and 4 (R76, R118); under the default
table the patterns are those of R77. A byte that is a start or stop code and a control code too, which R118 allows a table,
reads as the former: what the machine does with it is the same (log 9). -/
def codeMap (t : ControlTable) : List CodeRow :=
  [ ⟨0xFF#8, 0xE5#8, fun _ => .singleCharacter⟩,
    ⟨0xFF#8, 0x10#8, fun _ => .shortFrame⟩,
    ⟨0xFF#8, 0x68#8, fun _ => .longControlFrame⟩,
    ⟨0xFF#8, 0x16#8, fun _ => .stop⟩,
    ⟨0xFF#8, t.codeOf .sndNke, fun _ => .sndNke⟩,
    ⟨0xDF#8, t.codeOf (.sndUd false), fun b => .sndUd (b.getLsbD 5)⟩,
    ⟨0xDF#8, t.codeOf (.reqUd1 false), fun b => .reqUd1 (b.getLsbD 5)⟩,
    ⟨0xDF#8, t.codeOf (.reqUd2 false), fun b => .reqUd2 (b.getLsbD 5)⟩,
    ⟨0xCF#8, t.codeOf (.rspUd false false), fun b => .rspUd (b.getLsbD 5) (b.getLsbD 4)⟩ ]

/-- Does a byte match a row of the code map. -/
def CodeRow.covers (r : CodeRow) (b : Byte) : Bool :=
  b &&& r.mask == r.pattern

/-- The code a byte carries under a table, if any: 15 of the 256 values carry one under the default table. -/
def decodeByte (t : ControlTable) (b : Byte) : Option Instr :=
  ((codeMap t).find? (fun r => r.covers b)).map (fun r => r.instr b)

/-- Why a byte sequence does not begin with a code. -/
inductive DecodeError where
  /-- There is no byte to decode. -/
  | noByte
  /-- The first byte is in no row of the code map. -/
  | notACode (b : Byte)
  deriving DecidableEq, Repr

/-- The code at the front of a byte sequence under a table, and the bytes after it. -/
def decode (t : ControlTable) : List Byte → Except DecodeError (Instr × List Byte)
  | [] => .error .noByte
  | b :: rest =>
    match decodeByte t b with
    | some i => .ok (i, rest)
    | none => .error (.notACode b)

/-- Bit n of a byte, alone (R14). -/
def flagBit (n : Nat) (f : Bool) : Byte :=
  if f then 1#8 <<< n else 0#8

/-- The byte of each code (R80, R73), a control code's from the table, with the flags in bits 5 and 4 (R76, R118). -/
def encode (t : ControlTable) : Instr → Byte
  | .singleCharacter => 0xE5#8
  | .shortFrame => 0x10#8
  | .longControlFrame => 0x68#8
  | .stop => 0x16#8
  | .sndNke => t.codeOf .sndNke
  | .sndUd fcb => t.codeOf (.sndUd false) ||| flagBit 5 fcb
  | .reqUd1 fcb => t.codeOf (.reqUd1 false) ||| flagBit 5 fcb
  | .reqUd2 fcb => t.codeOf (.reqUd2 false) ||| flagBit 5 fcb
  | .rspUd acd dfc => t.codeOf (.rspUd false false) ||| flagBit 5 acd ||| flagBit 4 dfc

/-- The modulo-256 sum of a byte sequence (R75). -/
def checksum (payload : List Byte) : Byte :=
  payload.foldl (· + ·) 0#8

/-- The bytes that `L` counts: control through the end of the user data (R74). -/
def Frame.payload : Frame → List Byte
  | .singleCharacter => []
  | .short c a => [c, a]
  | .long c a rest => c :: a :: rest

/-- The bytes of a frame in transmission order (R70 to R75). Only for the statements about the parser: the block never
emits a frame (R6). -/
def Frame.bytes (f : Frame) : List Byte :=
  match f with
  | .singleCharacter => [0xE5#8]
  | .short _ _ => 0x10#8 :: f.payload ++ [checksum f.payload, 0x16#8]
  | .long _ _ _ =>
    let l := BitVec.ofNat 8 f.payload.length
    0x68#8 :: l :: l :: 0x68#8 :: f.payload ++ [checksum f.payload, 0x16#8]

/-- The bytes of an opcode-table word, the first at its least significant end (spec/98_reader.md). -/
def wordBytes (nbits w : Nat) : List Byte :=
  (List.range ((nbits + 7) / 8)).map (fun k => BitVec.ofNat 8 (w / 256 ^ k))

/-- The instruction the decoder reads from an opcode-table word. The opcode table is that of the default `CONTROL_TABLE`. -/
def decodeTableWord (nbits w : Nat) : Option Instr :=
  match decode defaultControlTable (wordBytes nbits w) with
  | .ok (i, _) => some i
  | .error _ => none

end Sys2Proof
end

