-- ==== Sys2Proof/Machine/State.lean ====
section
/-! DEFINITION. The state of the block as plain data: the eleven registers (10_state.md R21), the event outputs of the
step just taken and the input ports of the coming steps (R33, log 1, log 2), the parameter the machine was built with
(R38, log 4), and the types they are made of. -/
namespace Sys2Proof.Machine

/-- The FSM states (10_state.md R24). The unused encodings 10..15 have no constructor (70_reset_and_hazards.md R254). -/
inductive FsmState where
  | idle
  | hdrLen1
  | hdrLen2
  | hdrStart2
  | plCtrl
  | plAddr
  | plCi
  | plUd
  | plCs
  | plStop
  deriving DecidableEq, Repr

/-- The address classes (40_address_decoder.md R100). -/
inductive Address where
  | unconfigured
  | configured (n : Byte)
  | reserved
  | networkLayer
  | broadcast
  deriving DecidableEq, Repr

/-- The user-data descriptor: offset from the frame's first byte, and length (43_payload_checksum.md R163). -/
structure UserData where
  off : Count
  len : Byte
  deriving DecidableEq, Repr

/-- A decoded telegram (00_scope.md R17). -/
inductive Telegram where
  | singleCharacter
  | shortFrame (control : Control) (address : Address)
  | controlFrame (control : Control) (address : Address) (ci : Byte)
  | longFrame (control : Control) (address : Address) (ci : Byte) (ud : UserData)
  deriving DecidableEq, Repr

/-- The error kinds that an event can carry (60_exceptions.md R220, R221). Incomplete is status, not an event. -/
inductive ErrorKind where
  | invalidStartCharacter
  | invalidFormat
  | checksumMismatch
  deriving DecidableEq, Repr

/-- A one-step result event (10_state.md R34): the verdict and `k`, the bytes of the attempt including the deciding
one. -/
inductive Event where
  | ok (t : Telegram) (k : Count)
  | err (e : ErrorKind) (k : Count)
  deriving DecidableEq, Repr

/-- The input ports in one step (10_state.md R33); `clk` is the step itself (R262). -/
structure Ports where
  rst : Bool
  abort : Bool
  inValid : Bool
  inByte : Byte
  deriving DecidableEq, Repr

/-- What a step is given, after the priority of 44_stream_fsm.md R180. -/
inductive Input where
  | reset
  | abort
  | byte (b : Byte)
  | noInput
  deriving DecidableEq, Repr

/-- The output ports in one step (10_state.md R33). `none` is a port that carries nothing meaningful in that step: it
holds any value, and the host must not read it (R34, R35, log 11). -/
structure Outputs where
  inReady : Bool
  evValid : Bool
  evOk : Option Bool
  evErr : Option (BitVec 2)
  evCnt : Option Count
  telKind : Option (BitVec 2)
  ctlRaw : Option Byte
  ctlVar : Option (BitVec 3)
  fcb : Option Bool
  acd : Option Bool
  dfc : Option Bool
  adrRaw : Option Byte
  adrCls : Option (BitVec 3)
  ciOut : Option Byte
  udOff : Option Count
  udLen : Option Byte
  busy : Bool
  needK : Bool
  need : Option Count
  deriving DecidableEq, Repr

/-- The registers, "exactly the registers below and no others" (10_state.md R21). -/
structure Regs where
  /-- `st`, R24. -/
  st : FsmState
  /-- `pos`, R25. -/
  pos : Count
  /-- `len`, R26. -/
  len : Byte
  /-- `tot`, R27. -/
  tot : Count
  /-- `tot_k`, R27. -/
  totK : Bool
  /-- `rem`, R28. -/
  rem : Byte
  /-- `sum`, R29. -/
  sum : Byte
  /-- `ctl`, R30. -/
  ctl : Byte
  /-- `adr`, R31. -/
  adr : Byte
  /-- `ci`, R32. -/
  ci : Byte
  /-- `ci_v`, R32. -/
  ciV : Bool
  deriving DecidableEq, Repr

/-- The whole machine. -/
structure State where
  /-- The registers of R21. -/
  regs : Regs
  /-- The event outputs of the step just taken (R34); they last that one step (R257). -/
  ev : Option Event
  /-- The input ports of the coming steps, the next one first; an empty list is a host that drives no input. -/
  inputs : List Ports
  /-- A reset step has been taken: before it the registers are unspecified, and only a reset step runs (R251). The model's
  own field (log 3). -/
  wasReset : Bool
  /-- The value of the parameter `CONTROL_TABLE` that the machine was built with (00_scope.md R12, 10_state.md R38). No step
  writes it: "it cannot be changed at run time" (70_reset_and_hazards.md R253). No register: the model's own field (log 4). -/
  controlTable : ControlTable
  deriving DecidableEq, Repr

/-- No step of this block faults: it has no traps (60_exceptions.md preamble), and an error verdict is an event after
which it goes on (R226). No constructor, so nobody raises one (log 12). -/
inductive Fault
  deriving DecidableEq, Repr

/-- Why a step is refused. -/
inductive Refusal where
  /-- Raised by an arm of `exec` for an instruction without a meaning; no arm raises it now. Safe. -/
  | notModelled (mnemonic : String)
  /-- Raised by every step but a reset step before the first reset: "Starting from an unreset state refuses rather than
  picks a value" (70_reset_and_hazards.md R251, 93_implementation_defined.md U3). Safe. -/
  | beforeReset
  deriving DecidableEq, Repr

/-- The reset value of every register (10_state.md R40). -/
def Regs.reset : Regs where
  st := .idle
  pos := 0
  len := 0x00#8
  tot := 0
  totK := false
  rem := 0x00#8
  sum := 0x00#8
  ctl := 0x00#8
  adr := 0x00#8
  ci := 0x00#8
  ciV := false

/-- The machine built with a given `CONTROL_TABLE`, right after reset (R12, R40, R250): no event, and no input waiting. -/
def State.resetWith (t : ControlTable) : State where
  regs := Regs.reset
  ev := none
  inputs := []
  wasReset := true
  controlTable := t

/-- The machine built with the default `CONTROL_TABLE` (41_control_decoder.md R110), right after reset. -/
def State.reset : State :=
  State.resetWith defaultControlTable

end Sys2Proof.Machine
end

