-- ==== Sys2Proof/Machine/Ops.lean ====
section
/-! DEFINITION. The shared operations over the registers: ending an attempt, reporting an error (the block's analogue of
taking an exception, 60_exceptions.md R226), reporting a telegram, taking one payload byte, and the three steps that
accept no byte (reset, abort, no input). -/
namespace Sys2Proof.Machine

/-- What one step of the FSM gives: the new registers and the event, if any (44_stream_fsm.md R180). -/
abbrev Reaction := Regs × Option Event

/-- The attempt is over: `st <- IDLE, pos <- 0`, every other register kept (10_state.md R41). -/
def Regs.endAttempt (r : Regs) : Regs :=
  { r with st := .idle, pos := 0 }

/-- `emit Err(e, k)`: the error event of the deciding byte and the return to `IDLE` (60_exceptions.md R226). Nothing else
is saved and there is no handler; there is no return operation, since the byte after it is examined in `IDLE` as a new
start candidate (R227). -/
def raise (e : ErrorKind) (k : Count) (r : Regs) : Reaction :=
  (r.endAttempt, some (.err e k))

/-- `emit Ok(t, k)`: the telegram event and the return to `IDLE` (44_stream_fsm.md preamble). -/
def report (t : Telegram) (k : Count) (r : Regs) : Reaction :=
  (r.endAttempt, some (.ok t k))

/-- A transition without an event. -/
def goOn (r : Regs) : Reaction :=
  (r, none)

/-- The event count `k = pos + 1` (10_state.md R25), with the old `pos`. -/
def Regs.eventCount (r : Regs) : Count :=
  r.pos + 1

/-- Entry to the payload: `rem <- L, sum <- 0x00, ci_v <- 0`, with `pos` at the number of bytes before it (10_state.md
R28, R29, R32; 44_stream_fsm.md R182, R187). -/
def Regs.enterPayload (r : Regs) (length : Byte) (before : Count) : Regs :=
  { r with st := .plCtrl, pos := before, rem := length, sum := 0x00#8, ciV := false }

/-- One payload byte: `sum <- sum +8 b, rem <- rem - 1, pos <- pos + 1` (10_state.md R28, R29; 44_stream_fsm.md R188 to
R191). -/
def Regs.takePayload (r : Regs) (b : Byte) : Regs :=
  { r with sum := r.sum + b, rem := r.rem - 1, pos := r.pos + 1 }

/-- Where the FSM goes after a payload byte: to `PL_CS` when that byte was the last one, else to the given state
(44_stream_fsm.md R189 to R191; `rem` is the value before the step). -/
def Regs.afterPayload (r : Regs) (more : FsmState) : FsmState :=
  if 0 < (r.rem - 1).toNat then more else .plCs

/-- The state with one FSM reaction in it. -/
def State.commit (s : State) (x : Reaction) : State :=
  { s with regs := x.1, ev := x.2 }

/-- The guard of every step but a reset step: it goes on only in a machine that has been reset. Before that "the register
values are unspecified" and the model "refuses rather than picks a value" (70_reset_and_hazards.md R251, U3). -/
def State.onceReset (s next : State) : Host.Outcome State Fault Refusal :=
  if s.wasReset then .next next else .refused .beforeReset

/-- A step with `rst` = 1: every register takes its reset value and no event is given (10_state.md R40, R250). -/
def State.doReset (s : State) : State :=
  { s with regs := Regs.reset, ev := none, wasReset := true }

/-- A step with `abort` = 1: `st <- IDLE, pos <- 0`, every other register kept, no event (44_stream_fsm.md R194). -/
def State.doAbort (s : State) : State :=
  s.commit (goOn s.regs.endAttempt)

/-- A step without input: no register is written, no event (44_stream_fsm.md R195). -/
def State.doNothing (s : State) : State :=
  s.commit (goOn s.regs)

/-- The choice among the four inputs of a step, by priority (44_stream_fsm.md R180). -/
def Ports.select (p : Ports) : Input :=
  if p.rst then .reset
  else if p.abort then .abort
  else if p.inValid then .byte p.inByte
  else .noInput

/-- The ports of a host that presents one byte. -/
def Ports.present (b : Byte) : Ports where
  rst := false
  abort := false
  inValid := true
  inByte := b

/-- The input of the next step, and the state with it taken off the queue. A host that drives nothing more gives no
input (log 1). -/
def State.fetch (s : State) : Input × State :=
  match s.inputs with
  | [] => (.noInput, s)
  | p :: rest => (p.select, { s with inputs := rest })

end Sys2Proof.Machine
end

