-- ==== Sys2Proof/Machine/Operands.lean ====
section
/-! DEFINITION. The operand decoders: the address table `Addr` (40_address_decoder.md), the control table `Ctrl`
(41_control_decoder.md) for any value of the parameter `CONTROL_TABLE`, the user-data descriptor and the
telegram formed from the registers (44_stream_fsm.md R196). -/
namespace Sys2Proof.Machine

/-- `Addr`: total, pure, the class of a byte by its value range (40_address_decoder.md R101 to R106). -/
def addr (b : Byte) : Address :=
  if b.toNat = 0 then .unconfigured
  else if 1 ≤ b.toNat ∧ b.toNat ≤ 250 then .configured b
  else if b.toNat = 251 ∨ b.toNat = 252 then .reserved
  else if b.toNat = 253 then .networkLayer
  else .broadcast

/-- `Ctrl`: the control value of an accepted byte, or `InvalidControl` with the rejected byte (41_control_decoder.md
R111, R117). -/
def ctrl (t : ControlTable) (b : Byte) : Except Byte Control :=
  match t.lookup b with
  | some c => .ok c
  | none => .error b

/-- Does `Ctrl` accept a byte (its output `ok`, R111). -/
def ctrlAccepts (t : ControlTable) (b : Byte) : Bool :=
  match ctrl t b with
  | .ok _ => true
  | .error _ => false

/-- `Ctrl(ctl)` where a telegram names it (10_state.md R30). A register that holds a rejected byte at that point is in
no state that a run reaches; its outputs are then a free value (R117, U7, log 6). -/
def controlOf (t : ControlTable) (b : Byte) : Control :=
  match ctrl t b with
  | .ok c => c
  | .error bad => Config.unlistedControl bad

/-- The telegram formed at `PL_STOP` from the registers (44_stream_fsm.md R196). -/
def Regs.telegram (t : ControlTable) (r : Regs) : Telegram :=
  if r.len = 2 then .shortFrame (controlOf t r.ctl) (addr r.adr)
  else if r.len = 3 then .controlFrame (controlOf t r.ctl) (addr r.adr) r.ci
  else .longFrame (controlOf t r.ctl) (addr r.adr) r.ci ⟨7, r.len - 3⟩

/-- The bytes of a frame that a descriptor denotes: `in[off .. off+len)`, read from the host's own copy that begins with
the frame (00_scope.md R17, 43_payload_checksum.md R163). -/
def UserData.slice (d : UserData) (frame : List Byte) : List Byte :=
  (frame.drop d.off.toNat).take d.len.toNat

/-- The stream index of a frame's first byte: the index of the byte that produced the event, minus `ev_cnt`, plus 1
(20_memory.md R63). -/
def frameStart (eventIndex : Nat) (k : Count) : Nat :=
  eventIndex + 1 - k.toNat

/-- The user data in the host's copy of the whole stream: indices `s + off .. s + off + len - 1` (20_memory.md R63). -/
def UserData.inStream (d : UserData) (stream : List Byte) (eventIndex : Nat) (k : Count) : List Byte :=
  d.slice (stream.drop (frameStart eventIndex k))

end Sys2Proof.Machine
end

