-- ==== Sys2Proof/Machine/Flags.lean ====
section
/-! DEFINITION. Flags, status and port codes: the protocol flags (10_state.md R36, 41_control_decoder.md R111), the status
outputs (R35), the numeric codes (R24, R33, 60_exceptions.md R221) and all output ports of one step (R33, R34). -/
namespace Sys2Proof.Machine

/-- `fcb`, 0 for a variant without it (R111). -/
def fcbOf : Control → Bool
  | .sndNke => false
  | .sndUd f => f
  | .reqUd1 f => f
  | .reqUd2 f => f
  | .rspUd _ _ => false

/-- `acd`, 0 for a variant without it (R111). -/
def acdOf : Control → Bool
  | .rspUd a _ => a
  | .sndNke => false
  | .sndUd _ => false
  | .reqUd1 _ => false
  | .reqUd2 _ => false

/-- `dfc`, 0 for a variant without it (R111). -/
def dfcOf : Control → Bool
  | .rspUd _ d => d
  | .sndNke => false
  | .sndUd _ => false
  | .reqUd1 _ => false
  | .reqUd2 _ => false

/-- The code of a control variant on `ctl_var` (R111). -/
def ctlVarOf : Control → BitVec 3
  | .sndNke => 0
  | .sndUd _ => 1
  | .reqUd1 _ => 2
  | .reqUd2 _ => 3
  | .rspUd _ _ => 4

/-- The code of an address class on `adr_cls` (40_address_decoder.md R100). -/
def adrClsOf : Address → BitVec 3
  | .unconfigured => 0
  | .configured _ => 1
  | .reserved => 2
  | .networkLayer => 3
  | .broadcast => 4

/-- The code of an error kind on `ev_err` (60_exceptions.md R221). -/
def evErrOf : ErrorKind → BitVec 2
  | .invalidStartCharacter => 0
  | .invalidFormat => 1
  | .checksumMismatch => 2

/-- The code of a telegram kind on `tel_kind` (R33). -/
def telKindOf : Telegram → BitVec 2
  | .singleCharacter => 0
  | .shortFrame _ _ => 1
  | .controlFrame _ _ _ => 2
  | .longFrame _ _ _ _ => 3

/-- The code of an FSM state (R24). -/
def FsmState.code : FsmState → BitVec 4
  | .idle => 0
  | .hdrLen1 => 1
  | .hdrLen2 => 2
  | .hdrStart2 => 3
  | .plCtrl => 4
  | .plAddr => 5
  | .plCi => 6
  | .plUd => 7
  | .plCs => 8
  | .plStop => 9

/-- The state a register value stands for; a hardware realisation "treats an unused value as `IDLE`"
(70_reset_and_hazards.md R254). -/
def FsmState.ofCode (c : BitVec 4) : FsmState :=
  if c = 1 then .hdrLen1
  else if c = 2 then .hdrLen2
  else if c = 3 then .hdrStart2
  else if c = 4 then .plCtrl
  else if c = 5 then .plAddr
  else if c = 6 then .plCi
  else if c = 7 then .plUd
  else if c = 8 then .plCs
  else if c = 9 then .plStop
  else .idle

/-- `busy = (st != IDLE)` (R35). -/
def Regs.busy (r : Regs) : Bool :=
  r.st != .idle

/-- `need_k = (st != IDLE) and tot_k` (R35). -/
def Regs.needK (r : Regs) : Bool :=
  r.busy && r.totK

/-- `need = tot - zext_9(pos)`, meaningful only when `need_k` = 1 (R35). -/
def Regs.need (r : Regs) : Count :=
  r.tot - r.pos

/-- All output ports of a step that starts with registers `r` and gives event `ev`. The status is that of the registers
before the step (70_reset_and_hazards.md R260); `in_ready` is constant 1 (R33); which event ports carry something
depends on the event (R34, 44_stream_fsm.md R196). -/
def Outputs.of (t : ControlTable) (r : Regs) (ev : Option Event) : Outputs :=
  let status : Outputs :=
    { inReady := true, evValid := false, evOk := none, evErr := none, evCnt := none, telKind := none,
      ctlRaw := none, ctlVar := none, fcb := none, acd := none, dfc := none, adrRaw := none, adrCls := none,
      ciOut := none, udOff := none, udLen := none,
      busy := r.busy, needK := r.needK, need := if r.needK then some r.need else none }
  let fields (x : Outputs) : Outputs :=
    let c := controlOf t r.ctl
    { x with
      ctlRaw := some r.ctl, ctlVar := some (ctlVarOf c), fcb := some (fcbOf c), acd := some (acdOf c),
      dfc := some (dfcOf c), adrRaw := some r.adr, adrCls := some (adrClsOf (addr r.adr)) }
  match ev with
  | none => status
  | some (.err e k) =>
    { status with evValid := true, evOk := some false, evErr := some (evErrOf e), evCnt := some k }
  | some (.ok tel k) =>
    let told := { status with evValid := true, evOk := some true, evCnt := some k, telKind := some (telKindOf tel) }
    match tel with
    | .singleCharacter => told
    | .shortFrame _ _ => fields told
    | .controlFrame _ _ ci => { fields told with ciOut := some ci }
    | .longFrame _ _ ci ud => { fields told with ciOut := some ci, udOff := some ud.off, udLen := some ud.len }

end Sys2Proof.Machine
end

