-- ==== Sys2Proof/Machine/Header.lean ====
section
/-! DEFINITION. The transitions of the frame-boundary detector: start-character dispatch, length echo, second start
(44_stream_fsm.md R181 to R187). The counts and positions are the numbers the rules write (log 5). -/
namespace Sys2Proof.Machine

/-- `IDLE`, byte 0xE5 (R181): a whole frame. -/
def startSingleCharacter (r : Regs) : Reaction :=
  report .singleCharacter 1 r

/-- `IDLE`, byte 0x10 (R182): a short frame opens, with L = 2 and total 5. -/
def startShortFrame (r : Regs) : Reaction :=
  goOn ({ r with len := 2, tot := 5, totK := true }.enterPayload 2 1)

/-- `IDLE`, byte 0x68 (R183): a control/long frame opens. -/
def startLongFrame (r : Regs) : Reaction :=
  goOn { r with st := .hdrLen1, pos := 1, totK := false }

/-- `IDLE`, any byte (R181 to R184). -/
def acceptIdle (b : Byte) (r : Regs) : Reaction :=
  if b = 0xE5#8 then startSingleCharacter r
  else if b = 0x10#8 then startShortFrame r
  else if b = 0x68#8 then startLongFrame r
  else raise .invalidStartCharacter 1 r

/-- `HDR_LEN1`, any byte (R185). -/
def acceptHdrLen1 (b : Byte) (r : Regs) : Reaction :=
  goOn { r with st := .hdrLen2, pos := 2, len := b, tot := b.setWidth 9 + 6, totK := decide (2 ≤ b.toNat) }

/-- `HDR_LEN2`, any byte (R186): the length echo check. -/
def acceptHdrLen2 (b : Byte) (r : Regs) : Reaction :=
  if b = r.len then goOn { r with st := .hdrStart2, pos := 3 }
  else raise .invalidStartCharacter 3 r

/-- `HDR_START2`, any byte (R187): the second start check, then the L < 2 check. -/
def acceptHdrStart2 (b : Byte) (r : Regs) : Reaction :=
  if b ≠ 0x68#8 then raise .invalidStartCharacter 4 r
  else if r.len.toNat < 2 then raise .invalidFormat 4 r
  else goOn (r.enterPayload r.len 4)

end Sys2Proof.Machine
end

