-- ==== Sys2Proof/Machine/Payload.lean ====
section
/-! DEFINITION. The transitions of the payload parser, the checksum validator and the stop character (44_stream_fsm.md
R188 to R193), and the whole FSM step (R180). -/
namespace Sys2Proof.Machine

/-- `PL_CTRL`, any byte (R188): the control field. -/
def acceptPlCtrl (t : ControlTable) (b : Byte) (r : Regs) : Reaction :=
  if ctrlAccepts t b then goOn { r.takePayload b with ctl := b, st := .plAddr }
  else raise .invalidFormat r.eventCount r

/-- `PL_ADDR`, any byte (R189): the address field. -/
def acceptPlAddr (b : Byte) (r : Regs) : Reaction :=
  goOn { r.takePayload b with adr := b, st := r.afterPayload .plCi }

/-- `PL_CI`, any byte (R190): the control information. -/
def acceptPlCi (b : Byte) (r : Regs) : Reaction :=
  goOn { r.takePayload b with ci := b, ciV := true, st := r.afterPayload .plUd }

/-- `PL_UD`, any byte (R191): user data, never compared with a delimiter. -/
def acceptPlUd (b : Byte) (r : Regs) : Reaction :=
  goOn { r.takePayload b with st := r.afterPayload .plUd }

/-- `PL_CS`, any byte (R192): the checksum validator. -/
def acceptPlCs (b : Byte) (r : Regs) : Reaction :=
  if b = r.sum then goOn { r with st := .plStop, pos := r.pos + 1 }
  else raise .checksumMismatch r.eventCount r

/-- `PL_STOP`, any byte (R193): the stop character, and the telegram of R196. -/
def acceptPlStop (t : ControlTable) (b : Byte) (r : Regs) : Reaction :=
  if b = 0x16#8 then report (r.telegram t) r.eventCount r
  else raise .invalidFormat r.eventCount r

/-- Accepting a byte: the transition of the current state (R180 (3), R197). -/
def acceptRegs (t : ControlTable) (b : Byte) (r : Regs) : Reaction :=
  match r.st with
  | .idle => acceptIdle b r
  | .hdrLen1 => acceptHdrLen1 b r
  | .hdrLen2 => acceptHdrLen2 b r
  | .hdrStart2 => acceptHdrStart2 b r
  | .plCtrl => acceptPlCtrl t b r
  | .plAddr => acceptPlAddr b r
  | .plCi => acceptPlCi b r
  | .plUd => acceptPlUd b r
  | .plCs => acceptPlCs b r
  | .plStop => acceptPlStop t b r

/-- `Step(regs, inp) -> (regs', ev)` (R180), for any value of `CONTROL_TABLE`. -/
def fsmStep (t : ControlTable) (r : Regs) : Input → Reaction
  | .reset => goOn Regs.reset
  | .abort => goOn r.endAttempt
  | .byte b => acceptRegs t b r
  | .noInput => goOn r

/-- The machine accepts a byte under the table it was built with, once it has been reset (70_reset_and_hazards.md R251). -/
def acceptByte (b : Byte) (s : State) : Host.Outcome State Fault Refusal :=
  s.onceReset (s.commit (acceptRegs s.controlTable b s.regs))

/-- The output ports during the step the state is about to take (10_state.md R33): the status before it, and its event.
Before the first reset nothing is reported. -/
def State.ports (s : State) : Outputs :=
  Outputs.of s.controlTable s.regs
    (if s.wasReset then (fsmStep s.controlTable s.regs s.fetch.1).2 else none)

end Sys2Proof.Machine
end

