-- ==== Sys2Proof/Machine/ControlCodes.lean ====
section
/-! DEFINITION. The meanings of the control codes (spec/opcode_table.json, format "control"): in `PL_CTRL` each is captured
as the control field (44_stream_fsm.md R188); which variant it names is `Ctrl`'s part (41_control_decoder.md). The byte
of a code is that of the `CONTROL_TABLE` the machine was built with (00_scope.md R12); the bytes named below are those of
the default (R110, log 4). -/
namespace Sys2Proof.Machine

/-- `SND_NKE`, byte 0x40 (R112). -/
def execSndNke (s : State) : Host.Outcome State Fault Refusal :=
  acceptByte (encode s.controlTable .sndNke) s

/-- `SND_UD`, bytes 0x53 and 0x73 (R113). -/
def execSndUd (fcb : Bool) (s : State) : Host.Outcome State Fault Refusal :=
  acceptByte (encode s.controlTable (.sndUd fcb)) s

/-- `REQ_UD1`, bytes 0x5B and 0x7B (R114). -/
def execReqUd1 (fcb : Bool) (s : State) : Host.Outcome State Fault Refusal :=
  acceptByte (encode s.controlTable (.reqUd1 fcb)) s

/-- `REQ_UD2`, bytes 0x5A and 0x7A (R115). -/
def execReqUd2 (fcb : Bool) (s : State) : Host.Outcome State Fault Refusal :=
  acceptByte (encode s.controlTable (.reqUd2 fcb)) s

/-- `RSP_UD`, bytes 0x08, 0x18, 0x28 and 0x38 (R116). -/
def execRspUd (acd dfc : Bool) (s : State) : Host.Outcome State Fault Refusal :=
  acceptByte (encode s.controlTable (.rspUd acd dfc)) s

end Sys2Proof.Machine
end

