-- ==== Sys2Proof/Machine/Start.lean ====
section
/-! DEFINITION. The meanings of the start codes (spec/opcode_table.json, format "start"). A code has its own role in one
state and is an ordinary byte elsewhere (44_stream_fsm.md R180, R199): the shared transition function decides. -/
namespace Sys2Proof.Machine

/-- `SINGLE_CHARACTER`, byte 0xE5: in `IDLE` a whole frame (42_frame_dispatch.md R132, 44_stream_fsm.md R181). -/
def execSingleCharacter (s : State) : Host.Outcome State Fault Refusal :=
  acceptByte (encode s.controlTable .singleCharacter) s

/-- `SHORT_FRAME`, byte 0x10: in `IDLE` opens a short frame (R133, R182). -/
def execShortFrame (s : State) : Host.Outcome State Fault Refusal :=
  acceptByte (encode s.controlTable .shortFrame) s

/-- `LONG_CONTROL_FRAME`, byte 0x68: in `IDLE` opens a control/long frame (R134, R183), in `HDR_START2` confirms it (R187). -/
def execLongControlFrame (s : State) : Host.Outcome State Fault Refusal :=
  acceptByte (encode s.controlTable .longControlFrame) s

end Sys2Proof.Machine
end

