-- ==== Sys2Proof/Machine/Stop.lean ====
section
/-! DEFINITION. The meaning of the stop code (spec/opcode_table.json, format "stop"). -/
namespace Sys2Proof.Machine

/-- `STOP`, byte 0x16: in `PL_STOP` ends the frame with its telegram (43_payload_checksum.md R157, 44_stream_fsm.md R193). -/
def execStop (s : State) : Host.Outcome State Fault Refusal :=
  acceptByte (encode s.controlTable .stop) s

end Sys2Proof.Machine
end

