-- ==== Sys2Proof/Machine/Dispatch.lean ====
section
/-! DEFINITION. One arm per code, each one direct call of its meaning. -/
namespace Sys2Proof.Machine

def exec (i : Instr) (s : State) : Host.Outcome State Fault Refusal :=
  match i with
  | .singleCharacter => Sys2Proof.Machine.execSingleCharacter s
  | .shortFrame => Sys2Proof.Machine.execShortFrame s
  | .longControlFrame => Sys2Proof.Machine.execLongControlFrame s
  | .stop => Sys2Proof.Machine.execStop s
  | .sndNke => Sys2Proof.Machine.execSndNke s
  | .sndUd fcb => Sys2Proof.Machine.execSndUd fcb s
  | .reqUd1 fcb => Sys2Proof.Machine.execReqUd1 fcb s
  | .reqUd2 fcb => Sys2Proof.Machine.execReqUd2 fcb s
  | .rspUd acd dfc => Sys2Proof.Machine.execRspUd acd dfc s

end Sys2Proof.Machine
end

