-- ==== Sys2Proof/Machine/Step.lean ====
section
/-! DEFINITION. One step of the machine: the next input by the priority of 44_stream_fsm.md R180, and a presented byte run
as the code it carries. -/
namespace Sys2Proof.Machine

/-- One step (R180), under the table the machine was built with (R12). Before the first reset only a reset step runs (R251).
A byte with no code, 241 of the 256 values under the default table, is accepted by the same transitions (log 9). -/
def step (s : State) : Host.Outcome State Fault Refusal :=
  let s' := s.fetch.2
  match s.fetch.1 with
  | .reset => .next s'.doReset
  | .abort => s'.onceReset s'.doAbort
  | .noInput => s'.onceReset s'.doNothing
  | .byte b =>
    match decodeByte s.controlTable b with
    | some i => exec i s'
    | none => acceptByte b s'

/-- The host presents a word's bytes in the very next steps, before anything it had queued (log 8). -/
def State.withFetchWord (s : State) (nbits w : Nat) : State :=
  { s with inputs := (wordBytes nbits w).map Ports.present ++ s.inputs }

end Sys2Proof.Machine
end

