-- ==== Sys2Proof/Machine/Reference.lean ====
section
/-! DEFINITION. The reference function `Parse` (42_frame_dispatch.md R130, 43_payload_checksum.md R150), the normative
meaning of the block, the event sequence of a stream (44_stream_fsm.md R201) and the telegram a frame stands for. `in[i]`
is `inp[i]?`, which is `none` exactly when n <= i. -/
namespace Sys2Proof.Machine

/-- What an unfinished frame still needs (00_scope.md R17). -/
inductive Need where
  | known (m : Nat)
  | unknown
  deriving DecidableEq, Repr

/-- What `Parse` returns (00_scope.md R17): bytes consumed and telegram, or kind and decision index, or the shortfall. -/
inductive ParseResult where
  | ok (k : Nat) (t : Telegram)
  | err (e : ErrorKind) (d : Nat)
  | incomplete (need : Need)
  deriving DecidableEq, Repr

/-- `Classify` (43_payload_checksum.md R160). There is a CI byte exactly when L > 2 (R153). -/
def classify (c : Control) (a : Address) (ci : Option Byte) (L h : Nat) : Telegram :=
  match ci with
  | none => .shortFrame c a
  | some info =>
    if L = 3 then .controlFrame c a info
    else .longFrame c a info ⟨BitVec.ofNat 9 (h + 3), BitVec.ofNat 8 (L - 3)⟩

/-- The `for` loop of R150: `count` user-data bytes from index `i` on, added to `sum`; `none` when the input ends. -/
def sumUserData (inp : List Byte) : Nat → Nat → Byte → Option Byte
  | _, 0, sum => some sum
  | i, count + 1, sum =>
    match inp[i]? with
    | none => none
    | some b => sumUserData inp (i + 1) count (sum + b)

/-- `return Incomplete(Known(T - n))` with `T = h + L + 2` (R150, R158). -/
def needMore (inp : List Byte) (h L : Nat) : ParseResult :=
  .incomplete (.known (h + L + 2 - inp.length))

/-- The end of `Payload`: user data, checksum, stop character (R150, R154 to R157). -/
def payloadTail (inp : List Byte) (h L : Nat) (sum : Byte) (tel : Telegram) : ParseResult :=
  match sumUserData inp (h + 3) (L - 3) sum with
  | none => needMore inp h L
  | some total =>
    match inp[h + L]? with
    | none => needMore inp h L
    | some cs =>
      if cs ≠ total then .err .checksumMismatch (h + L)
      else
        match inp[h + L + 1]? with
        | none => needMore inp h L
        | some stop =>
          if stop ≠ 0x16#8 then .err .invalidFormat (h + L + 1)
          else .ok (h + L + 2) tel

/-- `Payload(in, h, L)` (R150 to R153). -/
def payload (t : ControlTable) (inp : List Byte) (h L : Nat) : ParseResult :=
  match inp[h]? with
  | none => needMore inp h L
  | some cb =>
    match ctrl t cb with
    | .error _ => .err .invalidFormat h
    | .ok c =>
      match inp[h + 1]? with
      | none => needMore inp h L
      | some ab =>
        if 2 < L then
          match inp[h + 2]? with
          | none => needMore inp h L
          | some ci => payloadTail inp h L (cb + ab + ci) (classify c (addr ab) (some ci) L h)
        else payloadTail inp h L (cb + ab) (classify c (addr ab) none L h)

/-- `NeedLong(L, n)` (42_frame_dispatch.md R130). -/
def needLong (L n : Nat) : Need :=
  if 2 ≤ L then .known (L + 6 - n) else .unknown

/-- `LongHeader(in)` (42_frame_dispatch.md R130, R134 to R137). -/
def longHeader (t : ControlTable) (inp : List Byte) : ParseResult :=
  match inp[1]? with
  | none => .incomplete .unknown
  | some l =>
    match inp[2]? with
    | none => .incomplete (needLong l.toNat inp.length)
    | some echo =>
      if echo ≠ l then .err .invalidStartCharacter 2
      else
        match inp[3]? with
        | none => .incomplete (needLong l.toNat inp.length)
        | some start =>
          if start ≠ 0x68#8 then .err .invalidStartCharacter 3
          else if l.toNat < 2 then .err .invalidFormat 3
          else payload t inp 4 l.toNat

/-- `Parse(in)` (42_frame_dispatch.md R130), for any value of `CONTROL_TABLE`. -/
def parse (t : ControlTable) (inp : List Byte) : ParseResult :=
  match inp[0]? with
  | none => .incomplete .unknown
  | some start =>
    if start = 0xE5#8 then .ok 1 .singleCharacter
    else if start = 0x10#8 then payload t inp 1 2
    else if start = 0x68#8 then longHeader t inp
    else .err .invalidStartCharacter 0

/-- `Events(s)` and the shortfall it ends with (44_stream_fsm.md R201). Every verdict uses up at least one byte, so fuel
equal to the length of the stream is enough. -/
def eventsOf (t : ControlTable) : Nat → List Byte → List Event × Need
  | 0, _ => ([], .unknown)
  | fuel + 1, stream =>
    match parse t stream with
    | .ok k tel =>
      let more := eventsOf t fuel (stream.drop k)
      (.ok tel (BitVec.ofNat 9 k) :: more.1, more.2)
    | .err e d =>
      let more := eventsOf t fuel (stream.drop (d + 1))
      (.err e (BitVec.ofNat 9 (d + 1)) :: more.1, more.2)
    | .incomplete need => ([], need)

/-- The shortfall as the status outputs report it (10_state.md R35; 44_stream_fsm.md R200 (c)). -/
def Regs.shortfall (r : Regs) : Need :=
  if r.needK then .known r.need.toNat else .unknown

/-- The telegram that a frame carries: its kind by L alone, its fields those it was built from (43_payload_checksum.md
R160 to R163, R166 (1)). -/
def telegramOf (t : ControlTable) : Frame → Telegram
  | .singleCharacter => .singleCharacter
  | .short c a => .shortFrame (controlOf t c) (addr a)
  | .long c a [] => .shortFrame (controlOf t c) (addr a)
  | .long c a [ci] => .controlFrame (controlOf t c) (addr a) ci
  | .long c a (ci :: ud) => .longFrame (controlOf t c) (addr a) ci ⟨7, BitVec.ofNat 8 ud.length⟩

end Sys2Proof.Machine
end

