-- ==== Sys2Proof/Safety.lean ====
section
/-! DEFINITION. The vocabulary of the statements: the invariant of the registers (44_stream_fsm.md R198), runs of the FSM
over inputs, and what a run of the machine reports. -/
namespace Sys2Proof.Machine

/-- The frame lengths agree once the payload has begun (R198 (b)): `L >= 2`, the total is known, and what is missing is
the rest of the payload plus `left` bytes (checksum and stop). The frame began with one byte (L = 2, the 0x10 form) or
with four (R72, R73). -/
def Regs.lengthsAgree (r : Regs) (left : Nat) : Prop :=
  2 ≤ r.len.toNat ∧ r.totK = true ∧ r.tot.toNat = r.pos.toNat + r.rem.toNat + left ∧
    (r.tot.toNat = r.len.toNat + 6 ∨ (r.tot.toNat = 5 ∧ r.len = 2))

/-- The invariant of the registers, by FSM state (R198 (b), (c), (e), (f) and what makes them inductive). -/
def Regs.Inv (t : ControlTable) (r : Regs) : Prop :=
  match r.st with
  | .idle => r.pos = 0
  | .hdrLen1 => r.pos = 1 ∧ r.totK = false
  | .hdrLen2 => r.pos = 2 ∧ r.tot.toNat = r.len.toNat + 6 ∧ r.totK = decide (2 ≤ r.len.toNat)
  | .hdrStart2 => r.pos = 3 ∧ r.tot.toNat = r.len.toNat + 6 ∧ r.totK = decide (2 ≤ r.len.toNat)
  | .plCtrl => r.lengthsAgree 2 ∧ r.rem = r.len ∧ r.sum = 0 ∧ r.ciV = false
  | .plAddr =>
    r.lengthsAgree 2 ∧ r.rem.toNat + 1 = r.len.toNat ∧ r.sum = r.ctl ∧ r.ciV = false ∧ ctrlAccepts t r.ctl = true
  | .plCi =>
    r.lengthsAgree 2 ∧ r.rem.toNat + 2 = r.len.toNat ∧ 1 ≤ r.rem.toNat ∧ r.sum = r.ctl + r.adr ∧ r.ciV = false ∧
      ctrlAccepts t r.ctl = true
  | .plUd =>
    r.lengthsAgree 2 ∧ r.rem.toNat + 3 ≤ r.len.toNat ∧ 1 ≤ r.rem.toNat ∧ r.ciV = true ∧ ctrlAccepts t r.ctl = true
  | .plCs => r.lengthsAgree 2 ∧ r.rem = 0 ∧ r.ciV = decide (3 ≤ r.len.toNat) ∧ ctrlAccepts t r.ctl = true
  | .plStop => r.lengthsAgree 1 ∧ r.rem = 0 ∧ r.ciV = decide (3 ≤ r.len.toNat) ∧ ctrlAccepts t r.ctl = true

/-- The invariant of the machine: it was built with a value of `CONTROL_TABLE` (41_control_decoder.md R118), and after a
reset step the registers meet theirs. -/
def State.Inv (s : State) : Prop :=
  s.controlTable.lawful = true ∧ (s.wasReset = true → s.regs.Inv s.controlTable)

/-- The machine built with a given `CONTROL_TABLE`, behind the host's interface (00_scope.md R12): `core` is the one built
with the default. -/
def coreWith (t : ControlTable) : Host.Core where
  State := State
  Fault := Fault
  Refusal := Refusal
  step := step
  reset := State.resetWith t

/-- The FSM over a sequence of inputs: the registers at the end, and the event of each step (R180). -/
def fsmRun (t : ControlTable) (r : Regs) : List Input → Regs × List (Option Event)
  | [] => (r, [])
  | i :: rest =>
    let now := fsmStep t r i
    let later := fsmRun t now.1 rest
    (later.1, now.2 :: later.2)

/-- The registers after accepting bytes that give no event; `none` as soon as one does. -/
def quietly (t : ControlTable) (r : Regs) : List Byte → Option Regs
  | [] => some r
  | b :: rest =>
    match acceptRegs t b r with
    | (r', none) => quietly t r' rest
    | (_, some _) => none

/-- The first event of at most `n` steps of the machine, with the number of steps up to it (R200). -/
def firstEvent : Nat → State → Option (Nat × Event)
  | 0, _ => none
  | n + 1, s =>
    match step s with
    | .next s' =>
      match s'.ev with
      | some e => some (1, e)
      | none => (firstEvent n s').map (fun x => (x.1 + 1, x.2))
    | .fault _ => none
    | .refused _ => none

/-- The host presents byte `b` in the next step, to a machine that has been reset, and `rest` after it. -/
def Presents (s : State) (b : Byte) (rest : List Ports) : Prop :=
  s.wasReset = true ∧ s.inputs = Ports.present b :: rest

/-- The input so far opens a payload of `L` bytes at index `h`: `10`, or `68 L L 68` with L >= 2 (43_payload_checksum.md
R150). -/
def OpensPayload (inp : List Byte) (h L : Nat) : Prop :=
  (inp[0]? = some 0x10#8 ∧ h = 1 ∧ L = 2) ∨
    (∃ l : Byte, inp.take 4 = [0x68#8, l, l, 0x68#8] ∧ 2 ≤ l.toNat ∧ h = 4 ∧ L = l.toNat)

/-- The payload of `inp` at `h` has an accepted control byte, and its `L` bytes have arrived. -/
def PayloadPasses (t : ControlTable) (inp : List Byte) (h L : Nat) : Prop :=
  (∃ c, inp[h]? = some c ∧ ctrlAccepts t c = true) ∧ h + L ≤ inp.length

/-- The payload bytes among the bytes of an attempt accepted so far (R75: the start characters, length bytes and stop
character are not summed). -/
def payloadSoFar (attempt : List Byte) : List Byte :=
  if attempt.head? = some 0x68#8 then attempt.drop 4 else attempt.drop 1

end Sys2Proof.Machine
end

