-- ==== Sys2Proof/Certificates/Slice0/Obligations.lean ====
section
/-! DEFINITION. The statements. Each docstring names the rule of spec/ it formalises; where a clause rests on a choice of the
model it names the log entry. -/
open Sys2Proof Sys2Proof.Machine

/-! ## Reset, abort, no input, priority -/

/-- R250, with the values of R40: a step with `rst` = 1, whatever the other ports and the state, sets every register,
gives no event and takes nothing from a byte; after it the status is that of the empty input, `Incomplete(Unknown)`. -/
def Obligations.ResetStepSetsEveryRegister : Prop :=
  ∀ (s : State) (p : Ports) (rest : List Ports), s.inputs = p :: rest → p.rst = true →
    let r : Regs :=
      { st := .idle, pos := 0, len := 0x00#8, tot := 0, totK := false, rem := 0x00#8, sum := 0x00#8, ctl := 0x00#8,
        adr := 0x00#8, ci := 0x00#8, ciV := false }
    step s = .next { regs := r, ev := none, inputs := rest, wasReset := true, controlTable := s.controlTable } ∧
      r.busy = false ∧ r.needK = false ∧ parse s.controlTable [] = .incomplete r.shortfall

/-- The reset state itself holds the values of R40. -/
def Obligations.ResetStateValues : Prop :=
  State.reset.regs =
      { st := .idle, pos := 0, len := 0x00#8, tot := 0, totK := false, rem := 0x00#8, sum := 0x00#8, ctl := 0x00#8,
        adr := 0x00#8, ci := 0x00#8, ciV := false } ∧
    State.reset.ev = none ∧ State.reset.regs.busy = false ∧ State.reset.regs.needK = false

/-- R40, last paragraph: the reset values of the other registers "cannot be observed through events". Two FSMs in `IDLE`
with `pos` = 0 give the same events on the same inputs, whatever their other registers hold, under any table. -/
def Obligations.StaleRegistersAreNotObserved : Prop :=
  ∀ (t : ControlTable) (r₁ r₂ : Regs) (inputs : List Input),
    r₁.st = .idle → r₁.pos = 0 → r₂.st = .idle → r₂.pos = 0 →
    (fsmRun t r₁ inputs).2 = (fsmRun t r₂ inputs).2

/-- R180 and R230: exactly one of the four inputs, by priority; one entry of the queue is used up; only an accepted byte
gives an event. -/
def Obligations.StepTakesOneInputByPriority : Prop :=
  ∀ (s : State) (p : Ports) (rest : List Ports), s.wasReset = true → s.inputs = p :: rest →
    ∃ s', step s = .next s' ∧ s'.inputs = rest ∧ s'.wasReset = true ∧ s'.controlTable = s.controlTable ∧
      (p.rst = true → s'.regs = Regs.reset ∧ s'.ev = none) ∧
      (p.rst = false → p.abort = true → s'.regs = { s.regs with st := .idle, pos := 0 } ∧ s'.ev = none) ∧
      (p.rst = false → p.abort = false → p.inValid = true →
        (s'.regs, s'.ev) = acceptRegs s.controlTable p.inByte s.regs) ∧
      (p.rst = false → p.abort = false → p.inValid = false → s'.regs = s.regs ∧ s'.ev = none)

/-- R194: abort returns to `IDLE` and keeps every other register; the byte of that step is lost; in `IDLE` it changes
nothing. -/
def Obligations.AbortKeepsTheOtherRegisters : Prop :=
  ∀ (s : State) (p : Ports) (rest : List Ports), s.wasReset = true → s.inputs = p :: rest →
    p.rst = false → p.abort = true →
    step s = .next { s with regs := { s.regs with st := .idle, pos := 0 }, ev := none, inputs := rest } ∧
      (s.regs.st = .idle → s.regs.pos = 0 →
        step s = .next { s with ev := none, inputs := rest })

/-- R195 and R256: without input nothing is written, for any number of steps; an attempt in progress stays busy. -/
def Obligations.WithoutInputNothingChanges : Prop :=
  ∀ (s : State) (n : Nat), s.wasReset = true →
    (∀ p ∈ s.inputs, p.rst = false ∧ p.abort = false ∧ p.inValid = false) →
    ∃ s', Host.Core.run Sys2Proof.core n s = .next s' ∧ s'.regs = s.regs ∧ (0 < n → s'.ev = none) ∧
      (s.regs.st ≠ .idle → s'.regs.busy = true)

/-- R258: with `abort` or `rst` asserted, a presented byte makes no difference, and `in_ready` stays 1. -/
def Obligations.ByteBesideAbortOrResetIsLost : Prop :=
  ∀ (s : State) (p : Ports) (rest : List Ports) (v : Bool) (b : Byte),
    s.inputs = p :: rest → (p.rst = true ∨ p.abort = true) →
    step s = step { s with inputs := { p with inValid := v, inByte := b } :: rest } ∧
      s.ports.inReady = true ∧ s.ports.evValid = false

/-- R251, U3: State.reset is a machine that has been reset, and one that has not refuses every code, every byte, an
abort and a pause, whatever its registers hold. A reset step runs and ends that. The model's own field `wasReset` says
which (log 3). -/
def Obligations.NoByteBeforeReset : Prop :=
  State.reset.wasReset = true ∧
    ∀ (s : State), s.wasReset = false →
      (∀ i, exec i s = .refused .beforeReset) ∧
      (∀ b rest, s.inputs = Ports.present b :: rest → step s = .refused .beforeReset) ∧
      (∀ p rest, s.inputs = p :: rest → p.rst = false → step s = .refused .beforeReset) ∧
      (s.inputs = [] → step s = .refused .beforeReset) ∧
      (∀ p rest, s.inputs = p :: rest → p.rst = true →
        step s = .next
          { regs := Regs.reset, ev := none, inputs := rest, wasReset := true, controlTable := s.controlTable })

/-- R33 (`in_ready` constant 1) and R262 (no back-pressure): once reset, no step stops, and each uses up one entry of the
queue. -/
def Obligations.ResetMachineNeverStops : Prop :=
  ∀ s : State, s.wasReset = true →
    ∃ s', step s = .next s' ∧ s'.wasReset = true ∧ s'.inputs = s.inputs.tail ∧ s.ports.inReady = true

/-! ## Codes: decoding, and a step runs what it decodes -/

/-- Words written out from 30_encoding.md R77, R80 and R73, one or more for each row of the code map. The words 0x5A,
0x28 and 0x18, of ReqUd2 and RspUd, are the spec's open decision D8 (log 4). -/
def Obligations.WordsDecodeToTheirCodes : Prop :=
  decodeTableWord 8 0b11100101 = some .singleCharacter ∧ decodeTableWord 8 0b00010000 = some .shortFrame ∧
    decodeTableWord 8 0b01101000 = some .longControlFrame ∧ decodeTableWord 8 0b00010110 = some .stop ∧
    decodeTableWord 8 0b01000000 = some .sndNke ∧ decodeTableWord 8 0b01110011 = some (.sndUd true) ∧
    decodeTableWord 8 0b01111011 = some (.reqUd1 true) ∧ decodeTableWord 8 0b01011010 = some (.reqUd2 false) ∧
    decodeTableWord 8 0b00101000 = some (.rspUd true false) ∧ decodeTableWord 8 0b00011000 = some (.rspUd false true) ∧
    decodeTableWord 8 0b01100000 = none ∧ decodeTableWord 8 0b11010011 = none

/-- The decoder and the encoder of the code map agree, whatever bytes follow. Under the default table, whose bytes for
ReqUd2 and RspUd are the spec's decision D8 (log 4), they do on every byte in both directions. Under any other value of
`CONTROL_TABLE` they do too, but for a control code whose byte the table takes from the start and stop codes, which R118
does not forbid: that byte reads as the start or stop code (log 9). -/
def Obligations.DecodeAndEncodeAgree : Prop :=
  (∀ (b : Byte) (i : Instr) (rest : List Byte),
    decode defaultControlTable (b :: rest) = .ok (i, rest) ↔ b = encode defaultControlTable i) ∧
  (∀ (t : ControlTable) (b : Byte) (i : Instr) (rest : List Byte), t.lawful = true →
    (decode t (b :: rest) = .ok (i, rest) → b = encode t i) ∧
    (b = encode t i → i.control? = none ∨ b ∉ [0xE5#8, 0x10#8, 0x68#8, 0x16#8] →
      decode t (b :: rest) = .ok (i, rest)))

/-- A step runs the code that the presented byte carries under the machine's table, on the state with that byte taken off
the queue; a byte with no code is accepted by the same transitions (log 9). -/
def Obligations.StepRunsTheDecodedCode : Prop :=
  ∀ (s : State) (b : Byte) (rest : List Ports), s.inputs = Ports.present b :: rest →
    (∀ i, decodeByte s.controlTable b = some i → step s = exec i { s with inputs := rest }) ∧
      (decodeByte s.controlTable b = none → step s = acceptByte b { s with inputs := rest })

/-- R4, R180 (3): in every state, running a code is the transition of that state on the byte the code has under the
machine's table; nothing but the registers and the event changes. -/
def Obligations.CodeIsAcceptedInEveryState : Prop :=
  ∀ (i : Instr) (s : State), s.wasReset = true →
    exec i s =
      .next { s with
        regs := (acceptRegs s.controlTable (encode s.controlTable i) s.regs).1
        ev := (acceptRegs s.controlTable (encode s.controlTable i) s.regs).2 }

/-! ## The transitions -/

/-- R181: in `IDLE`, 0xE5 is a whole frame. -/
def Obligations.SingleCharacterCompletesInIdle : Prop :=
  ∀ s : State, s.wasReset = true → s.regs.st = .idle →
    exec .singleCharacter s =
      .next { s with regs := { s.regs with st := .idle, pos := 0 }, ev := some (.ok .singleCharacter 1) }

/-- R182 and R183: in `IDLE`, 0x10 and 0x68 open a frame, with the status each rule gives. -/
def Obligations.StartCodesOpenFrames : Prop :=
  ∀ s : State, s.wasReset = true → s.regs.st = .idle →
    (∃ s', exec .shortFrame s = .next s' ∧
      s' = { s with
        regs := { s.regs with
          st := .plCtrl, pos := 1, len := 2, tot := 5, totK := true, rem := 2, sum := 0x00#8, ciV := false }
        ev := none } ∧
      s'.regs.needK = true ∧ s'.regs.need = 4) ∧
    (∃ s', exec .longControlFrame s = .next s' ∧
      s' = { s with regs := { s.regs with st := .hdrLen1, pos := 1, totK := false }, ev := none } ∧
      s'.regs.needK = false)

/-- R184: in `IDLE`, any other byte is an error event of its own, and a run of j such bytes gives j of them. -/
def Obligations.OtherBytesInIdleAreErrors : Prop :=
  (∀ (s : State) (b : Byte) (rest : List Ports), Presents s b rest → s.regs.st = .idle →
    b ≠ 0xE5#8 → b ≠ 0x10#8 → b ≠ 0x68#8 →
    step s = .next { s with
      regs := { s.regs with st := .idle, pos := 0 }, ev := some (.err .invalidStartCharacter 1), inputs := rest }) ∧
  (∀ (t : ControlTable) (r : Regs) (bs : List Byte), r.st = .idle →
    (∀ b ∈ bs, b ≠ 0xE5#8 ∧ b ≠ 0x10#8 ∧ b ≠ 0x68#8) →
    (fsmRun t r (bs.map Input.byte)).2 = List.replicate bs.length (some (.err .invalidStartCharacter 1)))

/-- R185: the first length byte is taken whatever it is; with 0 or 1 the shortfall stays unknown. -/
def Obligations.FirstLengthByteSetsTheTotal : Prop :=
  ∀ (s : State) (b : Byte) (rest : List Ports), Presents s b rest → s.regs.st = .hdrLen1 →
    ∃ s', step s = .next s' ∧
      s' = { s with
        regs := { s.regs with
          st := .hdrLen2, pos := 2, len := b, tot := b.setWidth 9 + 6, totK := decide (2 ≤ b.toNat) }
        ev := none, inputs := rest } ∧
      s'.regs.tot.toNat = b.toNat + 6 ∧ (b.toNat < 2 → s'.regs.needK = false)

/-- R186: the second length byte must equal the first. -/
def Obligations.LengthEchoIsChecked : Prop :=
  ∀ (s : State) (b : Byte) (rest : List Ports), Presents s b rest → s.regs.st = .hdrLen2 →
    (b = s.regs.len →
      step s = .next { s with regs := { s.regs with st := .hdrStart2, pos := 3 }, ev := none, inputs := rest }) ∧
    (b ≠ s.regs.len →
      step s = .next { s with
        regs := { s.regs with st := .idle, pos := 0 }, ev := some (.err .invalidStartCharacter 3), inputs := rest })

/-- R187: the second start byte is checked first, then the declared length. -/
def Obligations.SecondStartIsCheckedBeforeLength : Prop :=
  ∀ (s : State) (b : Byte) (rest : List Ports), Presents s b rest → s.regs.st = .hdrStart2 →
    (b = 0x68#8 → 2 ≤ s.regs.len.toNat →
      step s = .next { s with
        regs := { s.regs with st := .plCtrl, pos := 4, rem := s.regs.len, sum := 0x00#8, ciV := false }
        ev := none, inputs := rest }) ∧
    (b ≠ 0x68#8 →
      step s = .next { s with
        regs := { s.regs with st := .idle, pos := 0 }, ev := some (.err .invalidStartCharacter 4), inputs := rest }) ∧
    (b = 0x68#8 → s.regs.len.toNat < 2 →
      step s = .next { s with
        regs := { s.regs with st := .idle, pos := 0 }, ev := some (.err .invalidFormat 4), inputs := rest })

/-- R188: the control byte is captured when `Ctrl` accepts it, else the attempt ends and `ctl` is not written. Where the
lengths agree, `rem` is at least 2 before and at least 1 after. -/
def Obligations.ControlByteIsCapturedOrRejected : Prop :=
  ∀ (s : State) (b : Byte) (rest : List Ports), Presents s b rest → s.regs.st = .plCtrl →
    (ctrlAccepts s.controlTable b = true →
      step s = .next { s with
        regs := { s.regs with
          ctl := b, sum := s.regs.sum + b, rem := s.regs.rem - 1, st := .plAddr, pos := s.regs.pos + 1 }
        ev := none, inputs := rest }) ∧
    (ctrlAccepts s.controlTable b = false →
      step s = .next { s with
        regs := { s.regs with st := .idle, pos := 0 }
        ev := some (.err .invalidFormat (s.regs.pos + 1)), inputs := rest }) ∧
    (s.Inv → 2 ≤ s.regs.rem.toNat ∧ 1 ≤ (s.regs.rem - 1).toNat)

/-- The five control codes in `PL_CTRL` (R112 to R116 with R188), under any value of `CONTROL_TABLE` the machine was built
with (R12, R118): each is accepted as the control value it stands for, and captured. -/
def Obligations.ControlCodesAreCaptured : Prop :=
  ∀ (i : Instr) (c : Control) (s : State), i.control? = some c → s.wasReset = true → s.controlTable.lawful = true →
    s.regs.st = .plCtrl →
    exec i s = .next { s with
      regs := { s.regs with
        ctl := encode s.controlTable i, sum := s.regs.sum + encode s.controlTable i, rem := s.regs.rem - 1
        st := .plAddr, pos := s.regs.pos + 1 }
      ev := none } ∧
    ctrl s.controlTable (encode s.controlTable i) = .ok c

/-- R189: every address byte is taken. -/
def Obligations.AddressByteIsTaken : Prop :=
  ∀ (s : State) (b : Byte) (rest : List Ports), Presents s b rest → s.regs.st = .plAddr →
    step s = .next { s with
      regs := { s.regs with
        adr := b, sum := s.regs.sum + b, rem := s.regs.rem - 1, pos := s.regs.pos + 1
        st := if 0 < (s.regs.rem - 1).toNat then .plCi else .plCs }
      ev := none, inputs := rest }

/-- R190: every control-information byte is taken. -/
def Obligations.InformationByteIsTaken : Prop :=
  ∀ (s : State) (b : Byte) (rest : List Ports), Presents s b rest → s.regs.st = .plCi →
    step s = .next { s with
      regs := { s.regs with
        ci := b, ciV := true, sum := s.regs.sum + b, rem := s.regs.rem - 1, pos := s.regs.pos + 1
        st := if 0 < (s.regs.rem - 1).toNat then .plUd else .plCs }
      ev := none, inputs := rest }

/-- R191: every user-data byte is taken, delimiter values too. -/
def Obligations.UserDataByteIsTaken : Prop :=
  ∀ (s : State) (b : Byte) (rest : List Ports), Presents s b rest → s.regs.st = .plUd →
    step s = .next { s with
      regs := { s.regs with
        sum := s.regs.sum + b, rem := s.regs.rem - 1, pos := s.regs.pos + 1
        st := if 0 < (s.regs.rem - 1).toNat then .plUd else .plCs }
      ev := none, inputs := rest }

/-- R192: the checksum byte is compared in all 8 bits. -/
def Obligations.ChecksumByteIsCompared : Prop :=
  ∀ (s : State) (b : Byte) (rest : List Ports), Presents s b rest → s.regs.st = .plCs →
    (b = s.regs.sum →
      step s = .next { s with
        regs := { s.regs with st := .plStop, pos := s.regs.pos + 1 }, ev := none, inputs := rest }) ∧
    (b ≠ s.regs.sum →
      step s = .next { s with
        regs := { s.regs with st := .idle, pos := 0 }
        ev := some (.err .checksumMismatch (s.regs.pos + 1)), inputs := rest })

/-- R193: in `PL_STOP` the stop code reports the telegram of R196, its kind by `len` alone, and any other byte is
`InvalidFormat`. What `Ctrl(ctl)` is for a rejected byte is a free value (log 6); no reachable state asks for it. -/
def Obligations.StopByteEndsTheFrame : Prop :=
  ∀ s : State, s.wasReset = true → s.regs.st = .plStop →
    (∃ tel, exec .stop s = .next { s with
        regs := { s.regs with st := .idle, pos := 0 }, ev := some (.ok tel (s.regs.pos + 1)) } ∧
      (s.regs.len = 2 → tel = .shortFrame (controlOf s.controlTable s.regs.ctl) (addr s.regs.adr)) ∧
      (s.regs.len = 3 → tel = .controlFrame (controlOf s.controlTable s.regs.ctl) (addr s.regs.adr) s.regs.ci) ∧
      (s.regs.len ≠ 2 → s.regs.len ≠ 3 →
        tel = .longFrame (controlOf s.controlTable s.regs.ctl) (addr s.regs.adr) s.regs.ci ⟨7, s.regs.len - 3⟩)) ∧
    (∀ (b : Byte) (rest : List Ports), s.inputs = Ports.present b :: rest → b ≠ 0x16#8 →
      step s = .next { s with
        regs := { s.regs with st := .idle, pos := 0 }
        ev := some (.err .invalidFormat (s.regs.pos + 1)), inputs := rest })

/-! ## Events and outputs -/

/-- R226, R41: an event comes only from an accepted byte, uses up no later input, and writes only `st` and `pos`. -/
def Obligations.EventWritesOnlyStateAndPosition : Prop :=
  ∀ (s s' : State) (e : Event), step s = .next s' → s'.ev = some e →
    (∃ p rest b, s.inputs = p :: rest ∧ p.select = .byte b ∧ s'.inputs = rest) ∧
      s'.regs = { s.regs with st := .idle, pos := 0 } ∧ s'.wasReset = s.wasReset

/-- R25 and R33: the event count is `pos + 1` with the old `pos`, and lies in 1..261. The header rules write it as a
number; where the invariant holds the two agree (log 5). -/
def Obligations.EventCountIsPositionPlusOne : Prop :=
  ∀ (s s' : State), s.wasReset = true → s.Inv → step s = .next s' →
    (∀ t k, s'.ev = some (.ok t k) → k = s.regs.pos + 1 ∧ 1 ≤ k.toNat ∧ k.toNat ≤ 261) ∧
    (∀ e k, s'.ev = some (.err e k) → k = s.regs.pos + 1 ∧ 1 ≤ k.toNat ∧ k.toNat ≤ 261)

/-- R34 and R196: `ev_valid` is 1 exactly in the steps that give an event, and the ports that event carries show it. A
telegram of more than one byte is formed at `PL_STOP` from the registers, its kind by `len` alone, and its ports are those
registers, decoded; `tel_kind` is 0 to 3 (R33). -/
def Obligations.EventPortsShowTheEvent : Prop :=
  ∀ (s s' : State), s.wasReset = true → step s = .next s' →
    s.ports.evValid = s'.ev.isSome ∧
    (∀ e k, s'.ev = some (.err e k) →
      s.ports.evOk = some false ∧ s.ports.evErr = some (evErrOf e) ∧ s.ports.evCnt = some k) ∧
    (∀ t k, s'.ev = some (.ok t k) →
      s.ports.evOk = some true ∧ s.ports.evCnt = some k ∧ s.ports.telKind = some (telKindOf t) ∧
      match t with
      | .singleCharacter => s.ports.telKind = some 0
      | .shortFrame c a =>
        s.regs.st = .plStop ∧ s.regs.len = 2 ∧ s.ports.telKind = some 1 ∧
          c = controlOf s.controlTable s.regs.ctl ∧ a = addr s.regs.adr ∧
          s.ports.ctlRaw = some s.regs.ctl ∧ s.ports.ctlVar = some (ctlVarOf c) ∧ s.ports.fcb = some (fcbOf c) ∧
          s.ports.acd = some (acdOf c) ∧ s.ports.dfc = some (dfcOf c) ∧
          s.ports.adrRaw = some s.regs.adr ∧ s.ports.adrCls = some (adrClsOf a)
      | .controlFrame c a ci =>
        s.regs.st = .plStop ∧ s.regs.len = 3 ∧ s.ports.telKind = some 2 ∧
          c = controlOf s.controlTable s.regs.ctl ∧ a = addr s.regs.adr ∧ ci = s.regs.ci ∧
          s.ports.ctlRaw = some s.regs.ctl ∧ s.ports.ctlVar = some (ctlVarOf c) ∧ s.ports.fcb = some (fcbOf c) ∧
          s.ports.acd = some (acdOf c) ∧ s.ports.dfc = some (dfcOf c) ∧
          s.ports.adrRaw = some s.regs.adr ∧ s.ports.adrCls = some (adrClsOf a) ∧
          s.ports.ciOut = some s.regs.ci
      | .longFrame c a ci ud =>
        s.regs.st = .plStop ∧ s.regs.len ≠ 2 ∧ s.regs.len ≠ 3 ∧ s.ports.telKind = some 3 ∧
          c = controlOf s.controlTable s.regs.ctl ∧ a = addr s.regs.adr ∧ ci = s.regs.ci ∧ ud = ⟨7, s.regs.len - 3⟩ ∧
          s.ports.ctlRaw = some s.regs.ctl ∧ s.ports.ctlVar = some (ctlVarOf c) ∧ s.ports.fcb = some (fcbOf c) ∧
          s.ports.acd = some (acdOf c) ∧ s.ports.dfc = some (dfcOf c) ∧
          s.ports.adrRaw = some s.regs.adr ∧ s.ports.adrCls = some (adrClsOf a) ∧
          s.ports.ciOut = some s.regs.ci ∧ s.ports.udOff = some 7 ∧ s.ports.udLen = some (s.regs.len - 3))

/-- R33: the codes of `tel_kind`, by telegram. -/
def Obligations.TelegramKindCodes : Prop :=
  telKindOf .singleCharacter = 0 ∧
    ∀ (c : Control) (a : Address) (ci : Byte) (ud : UserData),
      telKindOf (.shortFrame c a) = 1 ∧ telKindOf (.controlFrame c a ci) = 2 ∧ telKindOf (.longFrame c a ci ud) = 3

/-- R35 and R260: the status ports are functions of the registers before the step; the input of the step is not in
them. -/
def Obligations.StatusIsOfTheRegistersBefore : Prop :=
  ∀ s : State,
    s.ports.busy = decide (s.regs.st ≠ .idle) ∧
      s.ports.needK = (decide (s.regs.st ≠ .idle) && s.regs.totK) ∧
      (s.ports.needK = true → s.ports.need = some (s.regs.tot - s.regs.pos)) ∧
      (s.regs.st = .idle → s.ports.busy = false ∧ s.ports.needK = false)

/-- R221: the error codes, and 3 is never produced. -/
def Obligations.ErrorCodes : Prop :=
  evErrOf .invalidStartCharacter = 0 ∧ evErrOf .invalidFormat = 1 ∧ evErrOf .checksumMismatch = 2 ∧
    ∀ s : State, s.ports.evErr ≠ some 3

/-- R24: the code of each state. R254: no state has a code above 9, a hardware register that holds one is treated as
`IDLE`, and every other code stands for its state. -/
def Obligations.UnusedStateCodes : Prop :=
  (FsmState.idle.code = 0 ∧ FsmState.hdrLen1.code = 1 ∧ FsmState.hdrLen2.code = 2 ∧ FsmState.hdrStart2.code = 3 ∧
    FsmState.plCtrl.code = 4 ∧ FsmState.plAddr.code = 5 ∧ FsmState.plCi.code = 6 ∧ FsmState.plUd.code = 7 ∧
    FsmState.plCs.code = 8 ∧ FsmState.plStop.code = 9) ∧
  (∀ st : FsmState, st.code.toNat ≤ 9 ∧ FsmState.ofCode st.code = st) ∧
    ∀ c : BitVec 4, 10 ≤ c.toNat → FsmState.ofCode c = .idle

/-! ## The two lookup tables -/

/-- R101 to R105: the five classes of `Addr`, by range, with the codes of R100. -/
def Obligations.AddressClasses : Prop :=
  ∀ b : Byte,
    (b.toNat = 0 → addr b = .unconfigured ∧ adrClsOf (addr b) = 0) ∧
    (1 ≤ b.toNat → b.toNat ≤ 250 → addr b = .configured b ∧ adrClsOf (addr b) = 1) ∧
    (251 ≤ b.toNat → b.toNat ≤ 252 → addr b = .reserved ∧ adrClsOf (addr b) = 2) ∧
    (b.toNat = 253 → addr b = .networkLayer ∧ adrClsOf (addr b) = 3) ∧
    (254 ≤ b.toNat → addr b = .broadcast ∧ adrClsOf (addr b) = 4)

/-- R112, R113, R114: the source's five control bytes, with their variant code and flags, under any value of
`CONTROL_TABLE`: its laws fix these five (R118). The neighbours those rules name are rejected under the default table. -/
def Obligations.SourceControlBytes : Prop :=
  (∀ t : ControlTable, t.lawful = true →
    (∀ b : Byte, b = 0x40#8 → ctrl t b = .ok .sndNke ∧ ctlVarOf .sndNke = 0 ∧
      fcbOf .sndNke = false ∧ acdOf .sndNke = false ∧ dfcOf .sndNke = false) ∧
    (∀ b : Byte, b = 0x53#8 ∨ b = 0x73#8 → ctrl t b = .ok (.sndUd (b.getLsbD 5)) ∧
      ctlVarOf (.sndUd (b.getLsbD 5)) = 1 ∧ fcbOf (.sndUd (b.getLsbD 5)) = b.getLsbD 5 ∧
      acdOf (.sndUd (b.getLsbD 5)) = false ∧ dfcOf (.sndUd (b.getLsbD 5)) = false) ∧
    (∀ b : Byte, b = 0x5B#8 ∨ b = 0x7B#8 → ctrl t b = .ok (.reqUd1 (b.getLsbD 5)) ∧
      ctlVarOf (.reqUd1 (b.getLsbD 5)) = 2 ∧ fcbOf (.reqUd1 (b.getLsbD 5)) = b.getLsbD 5 ∧
      acdOf (.reqUd1 (b.getLsbD 5)) = false ∧ dfcOf (.reqUd1 (b.getLsbD 5)) = false)) ∧
  (∀ b : Byte, b = 0x60#8 ∨ b = 0x52#8 ∨ b = 0x57#8 ∨ b = 0xD3#8 → ctrl defaultControlTable b = .error b)

/-- R115, R116, R117 under the default table, whose six bytes here are the spec's decision D8 (log 4): ReqUd2 and RspUd
with their variant code and flags, and every byte outside the eleven is rejected with the byte. -/
def Obligations.DecidedControlBytes : Prop :=
  (∀ b : Byte, b = 0x5A#8 ∨ b = 0x7A#8 → ctrl defaultControlTable b = .ok (.reqUd2 (b.getLsbD 5)) ∧
    ctlVarOf (.reqUd2 (b.getLsbD 5)) = 3 ∧ fcbOf (.reqUd2 (b.getLsbD 5)) = b.getLsbD 5 ∧
    acdOf (.reqUd2 (b.getLsbD 5)) = false ∧ dfcOf (.reqUd2 (b.getLsbD 5)) = false) ∧
  (∀ b : Byte, b = 0x08#8 ∨ b = 0x18#8 ∨ b = 0x28#8 ∨ b = 0x38#8 →
    ctrl defaultControlTable b = .ok (.rspUd (b.getLsbD 5) (b.getLsbD 4)) ∧
    ctlVarOf (.rspUd (b.getLsbD 5) (b.getLsbD 4)) = 4 ∧ fcbOf (.rspUd (b.getLsbD 5) (b.getLsbD 4)) = false ∧
    acdOf (.rspUd (b.getLsbD 5) (b.getLsbD 4)) = b.getLsbD 5 ∧
    dfcOf (.rspUd (b.getLsbD 5) (b.getLsbD 4)) = b.getLsbD 4) ∧
  (∀ b : Byte, b ∉ [0x40#8, 0x53#8, 0x73#8, 0x5B#8, 0x7B#8, 0x5A#8, 0x7A#8, 0x08#8, 0x18#8, 0x28#8, 0x38#8] →
    ctrl defaultControlTable b = .error b)

/-- R118: under any table that meets its conditions, `Ctrl` is exhaustive and disjoint, the flags are the bits of the
byte, and a rejected byte is carried. -/
def Obligations.LawfulTablesAreExhaustiveAndDisjoint : Prop :=
  ControlTable.lawful defaultControlTable = true ∧
  ∀ t : ControlTable, t.lawful = true →
    (∀ c : Control, ∃ b, ctrl t b = .ok c ∧ ∀ b', ctrl t b' = .ok c → b' = b) ∧
    (∀ b f, ctrl t b = .ok (.sndUd f) → f = b.getLsbD 5) ∧
    (∀ b f, ctrl t b = .ok (.reqUd1 f) → f = b.getLsbD 5) ∧
    (∀ b f, ctrl t b = .ok (.reqUd2 f) → f = b.getLsbD 5) ∧
    (∀ b a d, ctrl t b = .ok (.rspUd a d) → a = b.getLsbD 5 ∧ d = b.getLsbD 4) ∧
    (∀ b x, ctrl t b = .error x → x = b)

/-! ## Invariants -/

/-- R198: the invariant of the registers is kept by every step, from every state that meets it, under any value of
`CONTROL_TABLE` the machine was built with. -/
def Obligations.StepKeepsTheInvariant : Prop :=
  ∀ s s' : State, s.Inv → step s = .next s' → s'.Inv

/-- The invariant holds right after reset, for a machine built with the default table and with any other value of the
parameter. -/
def Obligations.ResetMeetsTheInvariant : Prop :=
  State.reset.Inv ∧ ∀ t : ControlTable, Regs.reset.Inv t ∧ (t.lawful = true → (State.resetWith t).Inv)

/-- R12 and R253 (1): a machine built with any table keeps that table for good, whatever the host does, and otherwise
starts as the one built with the default does (R38: the parameter is its only configuration). The table stands in a field
of the model's own (log 4). -/
def Obligations.TableIsFixedAtBuildTime : Prop :=
  (∀ t : ControlTable, (coreWith t).reset = { State.reset with controlTable := t }) ∧
  coreWith defaultControlTable = core ∧
  ∀ (t : ControlTable) (n : Nat) (s s' : State), s.controlTable = t →
    Host.Core.run (coreWith t) n s = .next s' → s'.controlTable = t

/-- R198 (b), (c) and (f), read off the invariant. -/
def Obligations.InvariantBoundsTheLengths : Prop :=
  ∀ (t : ControlTable) (r : Regs), r.Inv t →
    r.pos.toNat ≤ 260 ∧
    (r.st = .plCtrl ∨ r.st = .plAddr ∨ r.st = .plCi ∨ r.st = .plUd ∨ r.st = .plCs →
      2 ≤ r.len.toNat ∧ r.totK = true ∧ (r.tot - r.pos).toNat = r.rem.toNat + 2) ∧
    (r.st = .plStop → (r.tot - r.pos).toNat = 1) ∧
    (r.st = .plCs ∨ r.st = .plStop → r.rem = 0) ∧
    (r.st = .plStop → 3 ≤ r.len.toNat → r.ciV = true)

/-- R198 (d), (e) and R25, along an attempt: after bytes that gave no event, `pos` counts them, `sum` is the sum of the
payload bytes among them (R29, R155), and within the payload `ci_v` says whether a CI byte was among them (the reading
of (e) is log 10). -/
def Obligations.AttemptRegistersSummariseItsBytes : Prop :=
  ∀ (t : ControlTable) (r r' : Regs) (attempt : List Byte), r.st = .idle → r.pos = 0 →
    quietly t r attempt = some r' →
    r'.pos.toNat = attempt.length ∧
    (r'.st = .plCtrl ∨ r'.st = .plAddr ∨ r'.st = .plCi ∨ r'.st = .plUd ∨ r'.st = .plCs →
      r'.sum = checksum (payloadSoFar attempt) ∧
        (r'.ciV = true ↔ 3 ≤ (payloadSoFar attempt).length)) ∧
    (r'.st = .plCs → (payloadSoFar attempt).length = r'.len.toNat) ∧
    (r'.st = .plStop → r'.sum = checksum ((payloadSoFar attempt).take r'.len.toNat) ∧
      (payloadSoFar attempt).getLast? = some r'.sum)

/-- R23 and R199: an accepted byte inside an attempt either ends it with an event or moves it on by exactly one byte; it
never begins another attempt. -/
def Obligations.OneAttemptAtATime : Prop :=
  ∀ (s s' : State) (b : Byte) (rest : List Ports), Presents s b rest → s.Inv → s.regs.st ≠ .idle →
    step s = .next s' →
    (s'.ev ≠ none ∧ s'.regs.st = .idle ∧ s'.regs.pos = 0) ∨
      (s'.ev = none ∧ s'.regs.st ≠ .idle ∧ s'.regs.pos = s.regs.pos + 1 ∧ 2 ≤ s'.regs.pos.toNat)

/-! ## The reference function, and the FSM against it -/

/-- R132, R135, R136, R137, R138: the verdicts of the dispatch and the header, whatever bytes follow. -/
def Obligations.HeaderVerdicts : Prop :=
  ∀ (t : ControlTable) (x : List Byte),
    parse t (0xE5#8 :: x) = .ok 1 .singleCharacter ∧
    (∀ l echo : Byte, echo ≠ l → parse t (0x68#8 :: l :: echo :: x) = .err .invalidStartCharacter 2) ∧
    (∀ l start : Byte, start ≠ 0x68#8 → parse t (0x68#8 :: l :: l :: start :: x) = .err .invalidStartCharacter 3) ∧
    (∀ l : Byte, l.toNat < 2 → parse t (0x68#8 :: l :: l :: 0x68#8 :: x) = .err .invalidFormat 3) ∧
    (∀ b : Byte, b ≠ 0xE5#8 → b ≠ 0x10#8 → b ≠ 0x68#8 → parse t (b :: x) = .err .invalidStartCharacter 0)

/-- R159, with the bound of R158: the Incomplete count of every input that ends before a verdict. -/
def Obligations.IncompleteCounts : Prop :=
  ∀ (t : ControlTable) (inp : List Byte) (need : Need), parse t inp = .incomplete need →
    (inp = [] ∧ need = .unknown) ∨
    (inp = [0x68#8] ∧ need = .unknown) ∨
    (∃ l rest, inp = 0x68#8 :: l :: rest ∧ l.toNat < 2 ∧ inp.length ≤ 3 ∧ need = .unknown) ∨
    (∃ l rest, inp = 0x68#8 :: l :: rest ∧ 2 ≤ l.toNat ∧ inp.length < l.toNat + 6 ∧
      need = .known (l.toNat + 6 - inp.length)) ∨
    (∃ rest, inp = 0x10#8 :: rest ∧ inp.length < 5 ∧ need = .known (5 - inp.length))

/-- R165: a verdict depends only on the bytes up to its decision index. -/
def Obligations.ParsePrefixProperty : Prop :=
  ∀ (t : ControlTable) (inp x : List Byte),
    (∀ k tel, parse t inp = .ok k tel → parse t (inp ++ x) = .ok k tel) ∧
    (∀ e d, parse t inp = .err e d → parse t (inp ++ x) = .err e d) ∧
    (∀ k tel, parse t (inp ++ x) = .ok k tel → k ≤ inp.length → parse t inp = .ok k tel) ∧
    (∀ e d, parse t (inp ++ x) = .err e d → d < inp.length → parse t inp = .err e d)

/-- R166: the source's four laws. (1) Round trip: a well-formed frame decodes to the fields it was built from, whatever
follows it. (2) A flipped checksum bit is `ChecksumMismatch` at the checksum. (3) A proper prefix is Incomplete. (4) A
length mismatch is `InvalidStartCharacter`. -/
def Obligations.SourceLawsHold : Prop :=
  ∀ t : ControlTable,
    (∀ (f : Frame) (x : List Byte), f.wellFormed t = true →
      parse t (f.bytes ++ x) = .ok f.bytes.length (telegramOf t f)) ∧
    (∀ (f : Frame) (i : Fin 8) (front : List Byte) (cs : Byte), f.wellFormed t = true →
      f.bytes = front ++ [cs, 0x16#8] → 2 ≤ f.bytes.length →
      parse t (front ++ [cs ^^^ (1#8 <<< i.val), 0x16#8]) = .err .checksumMismatch front.length) ∧
    (∀ (f : Frame) (n : Nat), f.wellFormed t = true → n < f.bytes.length →
      ∃ need, parse t (f.bytes.take n) = .incomplete need) ∧
    (∀ (l echo : Byte) (x : List Byte), l ≠ echo →
      parse t (0x68#8 :: l :: echo :: x) = .err .invalidStartCharacter 2)

/-- The converse of the round trip (R70 to R75, R160 to R164): whatever `Parse` accepts is a well-formed frame, with that
frame's length and telegram. -/
def Obligations.OnlyFramesAreAccepted : Prop :=
  ∀ (t : ControlTable) (inp : List Byte) (k : Nat) (tel : Telegram), parse t inp = .ok k tel →
    ∃ (f : Frame) (x : List Byte), f.wellFormed t = true ∧ inp = f.bytes ++ x ∧ k = f.bytes.length ∧
      tel = telegramOf t f

/-- R222, R223, R224: each error kind has exactly its causes, at its decision index. -/
def Obligations.ErrorsHaveExactlyTheirCauses : Prop :=
  ∀ (t : ControlTable) (inp : List Byte) (d : Nat),
    (parse t inp = .err .invalidStartCharacter d ↔
      (∃ b, inp[0]? = some b ∧ b ≠ 0xE5#8 ∧ b ≠ 0x10#8 ∧ b ≠ 0x68#8 ∧ d = 0) ∨
      (∃ l echo, inp.take 3 = [0x68#8, l, echo] ∧ echo ≠ l ∧ d = 2) ∨
      (∃ l start, inp.take 4 = [0x68#8, l, l, start] ∧ start ≠ 0x68#8 ∧ d = 3)) ∧
    (parse t inp = .err .invalidFormat d ↔
      (∃ h L c, OpensPayload inp h L ∧ inp[h]? = some c ∧ ctrlAccepts t c = false ∧ d = h) ∨
      (∃ l, inp.take 4 = [0x68#8, l, l, 0x68#8] ∧ l.toNat < 2 ∧ d = 3) ∨
      (∃ h L stop, OpensPayload inp h L ∧ PayloadPasses t inp h L ∧
        inp[h + L]? = some (checksum ((inp.drop h).take L)) ∧ inp[h + L + 1]? = some stop ∧ stop ≠ 0x16#8 ∧
        d = h + L + 1)) ∧
    (parse t inp = .err .checksumMismatch d ↔
      ∃ h L cs, OpensPayload inp h L ∧ PayloadPasses t inp h L ∧ inp[h + L]? = some cs ∧
        cs ≠ checksum ((inp.drop h).take L) ∧ d = h + L)

/-- R200: the machine, given the bytes of any input from any state in `IDLE` with `pos` = 0 and under any table
it was built with (R12), reports what `Parse` returns, at the byte that decides it; and while there is no verdict its
status is the shortfall. -/
def Obligations.MachineRealisesParse : Prop :=
  ∀ (s : State) (inp : List Byte) (later : List Ports),
    s.wasReset = true → s.regs.st = .idle → s.regs.pos = 0 → s.inputs = inp.map Ports.present ++ later →
    (∀ k t, parse s.controlTable inp = .ok k t ↔ firstEvent inp.length s = some (k, .ok t (BitVec.ofNat 9 k))) ∧
    (∀ e d, parse s.controlTable inp = .err e d ↔
      firstEvent inp.length s = some (d + 1, .err e (BitVec.ofNat 9 (d + 1)))) ∧
    ((∃ need, parse s.controlTable inp = .incomplete need) ↔ firstEvent inp.length s = none) ∧
    (∀ need, parse s.controlTable inp = .incomplete need →
      ∃ s', Host.Core.run Sys2Proof.core inp.length s = .next s' ∧ s'.regs.shortfall = need)

/-- R201: the events of a whole stream, from `IDLE` and without abort, under any table, and the status it ends with. -/
def Obligations.StreamEventsAreTheParsedFrames : Prop :=
  ∀ (t : ControlTable) (r : Regs) (stream : List Byte), r.st = .idle → r.pos = 0 →
    (fsmRun t r (stream.map Input.byte)).2.filterMap id = (eventsOf t stream.length stream).1 ∧
      (fsmRun t r (stream.map Input.byte)).1.shortfall = (eventsOf t stream.length stream).2

/-- R63 with R163: the descriptor of a long frame, used on the host's copy of the whole stream, names exactly the user
data that was sent, wherever the frame lies in the stream. -/
def Obligations.DescriptorNamesTheUserData : Prop :=
  ∀ (t : ControlTable) (before after : List Byte) (c a ci : Byte) (ud : List Byte),
    let f := Frame.long c a (ci :: ud)
    f.wellFormed t = true → ud ≠ [] →
    ∃ control d, parse t (f.bytes ++ after) = .ok f.bytes.length (.longFrame control (addr a) ci d) ∧
      d.off = 7 ∧ d.len.toNat = ud.length ∧
      d.inStream (before ++ f.bytes ++ after) (before.length + f.bytes.length - 1)
        (BitVec.ofNat 9 f.bytes.length) = ud
end

