-- ==== Sys2Proof/Laws/State.lean ====
section
/-! SUPPORT. One lemma per field per update of the registers and the state, so that no later proof unfolds an update. -/
namespace Sys2Proof.Machine

section EndAttempt
variable (r : Regs)
@[simp] theorem Regs.endAttempt_st : r.endAttempt.st = .idle := rfl
@[simp] theorem Regs.endAttempt_pos : r.endAttempt.pos = 0 := rfl
@[simp] theorem Regs.endAttempt_len : r.endAttempt.len = r.len := rfl
@[simp] theorem Regs.endAttempt_tot : r.endAttempt.tot = r.tot := rfl
@[simp] theorem Regs.endAttempt_totK : r.endAttempt.totK = r.totK := rfl
@[simp] theorem Regs.endAttempt_rem : r.endAttempt.rem = r.rem := rfl
@[simp] theorem Regs.endAttempt_sum : r.endAttempt.sum = r.sum := rfl
@[simp] theorem Regs.endAttempt_ctl : r.endAttempt.ctl = r.ctl := rfl
@[simp] theorem Regs.endAttempt_adr : r.endAttempt.adr = r.adr := rfl
@[simp] theorem Regs.endAttempt_ci : r.endAttempt.ci = r.ci := rfl
@[simp] theorem Regs.endAttempt_ciV : r.endAttempt.ciV = r.ciV := rfl
end EndAttempt

section EnterPayload
variable (r : Regs) (l : Byte) (k : Count)
@[simp] theorem Regs.enterPayload_st : (r.enterPayload l k).st = .plCtrl := rfl
@[simp] theorem Regs.enterPayload_pos : (r.enterPayload l k).pos = k := rfl
@[simp] theorem Regs.enterPayload_len : (r.enterPayload l k).len = r.len := rfl
@[simp] theorem Regs.enterPayload_tot : (r.enterPayload l k).tot = r.tot := rfl
@[simp] theorem Regs.enterPayload_totK : (r.enterPayload l k).totK = r.totK := rfl
@[simp] theorem Regs.enterPayload_rem : (r.enterPayload l k).rem = l := rfl
@[simp] theorem Regs.enterPayload_sum : (r.enterPayload l k).sum = 0 := rfl
@[simp] theorem Regs.enterPayload_ctl : (r.enterPayload l k).ctl = r.ctl := rfl
@[simp] theorem Regs.enterPayload_adr : (r.enterPayload l k).adr = r.adr := rfl
@[simp] theorem Regs.enterPayload_ci : (r.enterPayload l k).ci = r.ci := rfl
@[simp] theorem Regs.enterPayload_ciV : (r.enterPayload l k).ciV = false := rfl
end EnterPayload

section TakePayload
variable (r : Regs) (b : Byte)
@[simp] theorem Regs.takePayload_st : (r.takePayload b).st = r.st := rfl
@[simp] theorem Regs.takePayload_pos : (r.takePayload b).pos = r.pos + 1 := rfl
@[simp] theorem Regs.takePayload_len : (r.takePayload b).len = r.len := rfl
@[simp] theorem Regs.takePayload_tot : (r.takePayload b).tot = r.tot := rfl
@[simp] theorem Regs.takePayload_totK : (r.takePayload b).totK = r.totK := rfl
@[simp] theorem Regs.takePayload_rem : (r.takePayload b).rem = r.rem - 1 := rfl
@[simp] theorem Regs.takePayload_sum : (r.takePayload b).sum = r.sum + b := rfl
@[simp] theorem Regs.takePayload_ctl : (r.takePayload b).ctl = r.ctl := rfl
@[simp] theorem Regs.takePayload_adr : (r.takePayload b).adr = r.adr := rfl
@[simp] theorem Regs.takePayload_ci : (r.takePayload b).ci = r.ci := rfl
@[simp] theorem Regs.takePayload_ciV : (r.takePayload b).ciV = r.ciV := rfl
end TakePayload

section Commit
variable (s : State) (x : Reaction)
@[simp] theorem State.commit_regs : (s.commit x).regs = x.1 := rfl
@[simp] theorem State.commit_ev : (s.commit x).ev = x.2 := rfl
@[simp] theorem State.commit_inputs : (s.commit x).inputs = s.inputs := rfl
@[simp] theorem State.commit_wasReset : (s.commit x).wasReset = s.wasReset := rfl
@[simp] theorem State.commit_controlTable : (s.commit x).controlTable = s.controlTable := rfl
end Commit

section Ending
variable (s : State)
@[simp] theorem State.doReset_regs : s.doReset.regs = Regs.reset := rfl
@[simp] theorem State.doReset_ev : s.doReset.ev = none := rfl
@[simp] theorem State.doReset_inputs : s.doReset.inputs = s.inputs := rfl
@[simp] theorem State.doReset_wasReset : s.doReset.wasReset = true := rfl
@[simp] theorem State.doReset_controlTable : s.doReset.controlTable = s.controlTable := rfl
@[simp] theorem State.doAbort_regs : s.doAbort.regs = s.regs.endAttempt := rfl
@[simp] theorem State.doAbort_ev : s.doAbort.ev = none := rfl
@[simp] theorem State.doAbort_inputs : s.doAbort.inputs = s.inputs := rfl
@[simp] theorem State.doAbort_wasReset : s.doAbort.wasReset = s.wasReset := rfl
@[simp] theorem State.doAbort_controlTable : s.doAbort.controlTable = s.controlTable := rfl
@[simp] theorem State.doNothing_regs : s.doNothing.regs = s.regs := rfl
@[simp] theorem State.doNothing_ev : s.doNothing.ev = none := rfl
@[simp] theorem State.doNothing_inputs : s.doNothing.inputs = s.inputs := rfl
@[simp] theorem State.doNothing_wasReset : s.doNothing.wasReset = s.wasReset := rfl
@[simp] theorem State.doNothing_controlTable : s.doNothing.controlTable = s.controlTable := rfl
end Ending

section ResetWith
variable (t : ControlTable)
@[simp] theorem State.resetWith_regs : (State.resetWith t).regs = Regs.reset := rfl
@[simp] theorem State.resetWith_ev : (State.resetWith t).ev = none := rfl
@[simp] theorem State.resetWith_inputs : (State.resetWith t).inputs = [] := rfl
@[simp] theorem State.resetWith_wasReset : (State.resetWith t).wasReset = true := rfl
@[simp] theorem State.resetWith_controlTable : (State.resetWith t).controlTable = t := rfl
@[simp] theorem State.reset_eq_resetWith : State.reset = State.resetWith defaultControlTable := rfl
end ResetWith

section OnceReset
variable {s next s' : State}

/-- The guard answers a next state exactly after a reset, and then it is the one given. -/
theorem State.onceReset_eq_next_iff : s.onceReset next = .next s' ↔ s.wasReset = true ∧ s' = next := by
  unfold State.onceReset
  split
  · rename_i h
    simp only [Host.Outcome.next.injEq, h, true_and]
    exact eq_comm
  · rename_i h
    simp [h]

theorem State.onceReset_of_wasReset (h : s.wasReset = true) : s.onceReset next = .next next := by
  simp [State.onceReset, h]

theorem State.onceReset_of_not_wasReset (h : s.wasReset = false) : s.onceReset next = .refused .beforeReset := by
  simp [State.onceReset, h]
end OnceReset

section Reactions
variable (e : ErrorKind) (t : Telegram) (k : Count) (r : Regs)
@[simp] theorem raise_fst : (raise e k r).1 = r.endAttempt := rfl
@[simp] theorem raise_snd : (raise e k r).2 = some (.err e k) := rfl
@[simp] theorem report_fst : (report t k r).1 = r.endAttempt := rfl
@[simp] theorem report_snd : (report t k r).2 = some (.ok t k) := rfl
@[simp] theorem goOn_fst : (goOn r).1 = r := rfl
@[simp] theorem goOn_snd : (goOn r).2 = none := rfl
end Reactions

section Presenting
variable (b : Byte)
@[simp] theorem Ports.select_present : (Ports.present b).select = .byte b := rfl
end Presenting

section Fetching
variable (s : State)
@[simp] theorem State.fetch_regs : s.fetch.2.regs = s.regs := by
  unfold State.fetch; split <;> rfl
@[simp] theorem State.fetch_ev : s.fetch.2.ev = s.ev := by
  unfold State.fetch; split <;> rfl
@[simp] theorem State.fetch_wasReset : s.fetch.2.wasReset = s.wasReset := by
  unfold State.fetch; split <;> rfl
@[simp] theorem State.fetch_controlTable : s.fetch.2.controlTable = s.controlTable := by
  unfold State.fetch; split <;> rfl
@[simp] theorem State.fetch_inputs : s.fetch.2.inputs = s.inputs.tail := by
  unfold State.fetch; split <;> simp_all

/-- With something queued, the next input is its first entry. -/
theorem State.fetch_of_cons {p : Ports} {rest : List Ports} (h : s.inputs = p :: rest) :
    s.fetch = (p.select, { s with inputs := rest }) := by
  simp [State.fetch, h]

/-- With nothing queued there is no input, and the state is as it was. -/
theorem State.fetch_of_nil (h : s.inputs = []) : s.fetch = (.noInput, s) := by
  simp [State.fetch, h]
end Fetching

end Sys2Proof.Machine
end

