-- ==== Sys2Proof/Laws/Fsm.lean ====
section
/-! SUPPORT. What the shared operations can do, said once: the transition of each FSM state, accepting a byte, and the
meanings as acceptance of their codes. -/
namespace Sys2Proof.Machine

section Transition
variable (t : ControlTable) (b : Byte) (r : Regs)

theorem acceptRegs_idle (h : r.st = .idle) : acceptRegs t b r = acceptIdle b r := by
  simp only [acceptRegs, h]
theorem acceptRegs_hdrLen1 (h : r.st = .hdrLen1) : acceptRegs t b r = acceptHdrLen1 b r := by
  simp only [acceptRegs, h]
theorem acceptRegs_hdrLen2 (h : r.st = .hdrLen2) : acceptRegs t b r = acceptHdrLen2 b r := by
  simp only [acceptRegs, h]
theorem acceptRegs_hdrStart2 (h : r.st = .hdrStart2) : acceptRegs t b r = acceptHdrStart2 b r := by
  simp only [acceptRegs, h]
theorem acceptRegs_plCtrl (h : r.st = .plCtrl) : acceptRegs t b r = acceptPlCtrl t b r := by
  simp only [acceptRegs, h]
theorem acceptRegs_plAddr (h : r.st = .plAddr) : acceptRegs t b r = acceptPlAddr b r := by
  simp only [acceptRegs, h]
theorem acceptRegs_plCi (h : r.st = .plCi) : acceptRegs t b r = acceptPlCi b r := by
  simp only [acceptRegs, h]
theorem acceptRegs_plUd (h : r.st = .plUd) : acceptRegs t b r = acceptPlUd b r := by
  simp only [acceptRegs, h]
theorem acceptRegs_plCs (h : r.st = .plCs) : acceptRegs t b r = acceptPlCs b r := by
  simp only [acceptRegs, h]
theorem acceptRegs_plStop (h : r.st = .plStop) : acceptRegs t b r = acceptPlStop t b r := by
  simp only [acceptRegs, h]

/-- Which verdicts an accepted byte can give, and from where: every one ends the attempt. -/
theorem acceptRegs_cases :
    (acceptRegs t b r).2 = none ∨
      ((acceptRegs t b r).1 = r.endAttempt ∧ ∃ e, (acceptRegs t b r).2 = some e) := by
  unfold acceptRegs acceptIdle acceptHdrLen1 acceptHdrLen2 acceptHdrStart2 acceptPlCtrl acceptPlAddr acceptPlCi
    acceptPlUd acceptPlCs acceptPlStop startSingleCharacter startShortFrame startLongFrame
  split <;> (try split_ifs) <;> simp

end Transition

section Accepting
variable {b : Byte} {s s' : State}

/-- Accepting a byte answers a next state exactly after a reset, and then it is the FSM's reaction. -/
theorem acceptByte_eq_next_iff :
    acceptByte b s = .next s' ↔ s.wasReset = true ∧ s' = s.commit (acceptRegs s.controlTable b s.regs) :=
  State.onceReset_eq_next_iff

theorem acceptByte_of_wasReset (h : s.wasReset = true) :
    acceptByte b s = .next (s.commit (acceptRegs s.controlTable b s.regs)) :=
  State.onceReset_of_wasReset h

theorem acceptByte_of_not_wasReset (h : s.wasReset = false) : acceptByte b s = .refused .beforeReset :=
  State.onceReset_of_not_wasReset h

/-- Every meaning accepts its code. -/
theorem exec_eq_acceptByte (i : Instr) (s : State) : exec i s = acceptByte (encode s.controlTable i) s := by
  cases i <;> rfl

end Accepting

section Control
variable (t : ControlTable) (b : Byte)

theorem ctrl_of_lookup_some {c : Control} (h : t.lookup b = some c) : ctrl t b = .ok c := by
  simp [ctrl, h]
theorem ctrl_of_lookup_none (h : t.lookup b = none) : ctrl t b = .error b := by
  simp [ctrl, h]
/-- `Ctrl` answers a control value exactly when the table has it for the byte. -/
theorem ctrl_eq_ok_iff {c : Control} : ctrl t b = .ok c ↔ t.lookup b = some c := by
  unfold ctrl
  cases t.lookup b <;> simp
theorem ctrlAccepts_eq_isSome : ctrlAccepts t b = (t.lookup b).isSome := by
  unfold ctrlAccepts ctrl
  cases t.lookup b <;> rfl
theorem controlOf_of_ctrl_ok {c : Control} (h : ctrl t b = .ok c) : controlOf t b = c := by
  simp [controlOf, h]

end Control

end Sys2Proof.Machine
end

