-- ==== Sys2Proof/Laws/Table.lean ====
section
/-! SUPPORT. What a value of the parameter `CONTROL_TABLE` can be relied on for (41_control_decoder.md R118): each control
value has exactly one byte, that byte carries the value's flags, and the code map reads back what it was built from. -/
namespace Sys2Proof

section Lawful
variable {t : ControlTable}

/-- The conditions of R118, taken apart once. -/
theorem ControlTable.lawful_parts (h : t.lawful = true) :
    (t.map ControlRow.code).Nodup ∧ (t.codesOf .sndNke).length = 1 ∧ t.fcbPair .sndUd = true ∧
      t.fcbPair .reqUd1 = true ∧ t.fcbPair .reqUd2 = true ∧ t.rspUdQuad = true ∧ t.keepsSourceBytes = true := by
  simp only [ControlTable.lawful, ControlTable.elevenDistinct, ControlTable.oneSndNke, Bool.and_eq_true, beq_iff_eq,
    decide_eq_true_eq] at h
  obtain ⟨⟨⟨⟨⟨⟨⟨-, hd⟩, hs⟩, hu⟩, h1⟩, h2⟩, hr⟩, hk⟩ := h
  exact ⟨hd, hs, hu, h1, h2, hr, hk⟩

theorem ControlTable.codeOf_of_codesOf {c : Control} {b : Byte} (h : t.codesOf c = [b]) : t.codeOf c = b := by
  simp [ControlTable.codeOf, h]

/-- What condition (3) says of a variant with `fcb`. -/
theorem ControlTable.codes_of_fcbPair {variant : Bool → Control} (h : t.fcbPair variant = true) (f : Bool) :
    t.codesOf (variant f) = [t.codeOf (variant false) ||| flagBit 5 f] := by
  have set5 : ∀ b : Byte, b.getLsbD 5 = false → b ^^^ 0x20#8 = b ||| flagBit 5 true := by decide
  have set0 : ∀ b : Byte, b ||| flagBit 5 false = b := by decide
  unfold ControlTable.fcbPair at h
  split at h
  · rename_i b0 b1 h0 h1
    simp only [Bool.and_eq_true, Bool.not_eq_true', beq_iff_eq] at h
    cases f
    · rw [ControlTable.codeOf_of_codesOf h0, set0, h0]
    · rw [ControlTable.codeOf_of_codesOf h0, h1, h.2, set5 b0 h.1]
  · cases h

/-- What condition (4) says of RspUd. -/
theorem ControlTable.codes_of_rspUdQuad (h : t.rspUdQuad = true) (a d : Bool) :
    t.codesOf (.rspUd a d) = [t.codeOf (.rspUd false false) ||| flagBit 5 a ||| flagBit 4 d] := by
  have set5 : ∀ b : Byte, b.getLsbD 5 = false → b.getLsbD 4 = false →
      b = b ||| flagBit 5 false ||| flagBit 4 false ∧ b ^^^ 0x10#8 = b ||| flagBit 5 false ||| flagBit 4 true ∧
      b ^^^ 0x20#8 = b ||| flagBit 5 true ||| flagBit 4 false ∧
      b ^^^ 0x30#8 = b ||| flagBit 5 true ||| flagBit 4 true := by decide
  unfold ControlTable.rspUdQuad at h
  split at h
  · rename_i b00 b01 b10 b11 h00 h01 h10 h11
    simp only [Bool.and_eq_true, Bool.not_eq_true', beq_iff_eq] at h
    obtain ⟨⟨⟨⟨n5, n4⟩, e01⟩, e10⟩, e11⟩ := h
    obtain ⟨s00, s01, s10, s11⟩ := set5 b00 n5 n4
    rw [ControlTable.codeOf_of_codesOf h00]
    cases a <;> cases d
    · rw [← s00, h00]
    · rw [← s01, h01, e01]
    · rw [← s10, h10, e10]
    · rw [← s11, h11, e11]
  · cases h

/-- Under a lawful table, the encoding of an instruction is the one byte of its control value. -/
theorem ControlTable.codesOf_eq_encode (h : t.lawful = true) {i : Instr} {c : Control} (hc : i.control? = some c) :
    t.codesOf c = [encode t i] := by
  obtain ⟨-, hs, hu, h1, h2, hr, -⟩ := ControlTable.lawful_parts h
  cases i with
  | singleCharacter | shortFrame | longControlFrame | stop => cases hc
  | sndNke =>
    cases hc
    obtain ⟨b, hb⟩ := List.length_eq_one_iff.mp hs
    rw [hb, encode, ControlTable.codeOf_of_codesOf hb]
  | sndUd f => cases hc; exact ControlTable.codes_of_fcbPair hu f
  | reqUd1 f => cases hc; exact ControlTable.codes_of_fcbPair h1 f
  | reqUd2 f => cases hc; exact ControlTable.codes_of_fcbPair h2 f
  | rspUd a d => cases hc; exact ControlTable.codes_of_rspUdQuad hr a d

/-- With distinct bytes, looking a byte up finds every row that holds it. -/
theorem ControlTable.lookup_eq_some_iff (h : (t.map ControlRow.code).Nodup) {b : Byte} {c : Control} :
    t.lookup b = some c ↔ b ∈ t.codesOf c := by
  have hmem : b ∈ t.codesOf c ↔ ∃ row ∈ t, row.control = c ∧ row.code = b := by
    simp [ControlTable.codesOf, and_assoc]
  have unique : ∀ x ∈ t, ∀ y ∈ t, x.code = y.code → x = y := List.inj_on_of_nodup_map h
  rw [hmem, ControlTable.lookup, Option.map_eq_some_iff]
  constructor
  · rintro ⟨row, hrow, rfl⟩
    exact ⟨row, List.mem_of_find?_eq_some hrow, rfl, by simpa using List.find?_some hrow⟩
  · rintro ⟨row, hrow, rfl, rfl⟩
    cases hfind : t.find? (fun x => x.code == row.code) with
    | none => exact absurd (List.find?_eq_none.mp hfind row hrow) (by simp)
    | some x =>
      have hcode : x.code = row.code := by simpa using List.find?_some hfind
      exact ⟨x, rfl, congrArg _ (unique x (List.mem_of_find?_eq_some hfind) row hrow hcode)⟩

/-- Under a lawful table, `Ctrl` gives a control value for the byte that encodes it, and for no other byte. -/
theorem ControlTable.lookup_eq_some_iff_encode (h : t.lawful = true) {i : Instr} {c : Control}
    (hc : i.control? = some c) {b : Byte} : t.lookup b = some c ↔ b = encode t i := by
  rw [ControlTable.lookup_eq_some_iff (ControlTable.lawful_parts h).1, ControlTable.codesOf_eq_encode h hc,
    List.mem_singleton]

end Lawful

section Fixed
variable (t : ControlTable)
@[simp] theorem encode_singleCharacter : encode t .singleCharacter = 0xE5#8 := rfl
@[simp] theorem encode_shortFrame : encode t .shortFrame = 0x10#8 := rfl
@[simp] theorem encode_longControlFrame : encode t .longControlFrame = 0x68#8 := rfl
@[simp] theorem encode_stop : encode t .stop = 0x16#8 := rfl
end Fixed

/-- A byte that decodes to a code is that code's byte, under any table. -/
theorem encode_of_decodeByte {t : ControlTable} {b : Byte} {i : Instr} (h : decodeByte t b = some i) :
    encode t i = b := by
  have flag5 : ∀ b : Byte, b &&& 0xDF#8 ||| flagBit 5 (b.getLsbD 5) = b := by decide
  have flags : ∀ b : Byte, b &&& 0xCF#8 ||| flagBit 5 (b.getLsbD 5) ||| flagBit 4 (b.getLsbD 4) = b := by decide
  have whole : ∀ b : Byte, b &&& 0xFF#8 = b := by decide
  obtain ⟨r, hr, rfl⟩ := Option.map_eq_some_iff.mp h
  have hc : b &&& r.mask = r.pattern := by simpa [CodeRow.covers] using List.find?_some hr
  have hm := List.mem_of_find?_eq_some hr
  simp only [codeMap, List.mem_cons, List.not_mem_nil, or_false] at hm
  rcases hm with rfl | rfl | rfl | rfl | rfl | rfl | rfl | rfl | rfl <;>
    simp only [whole] at hc <;> simp only [encode, ← hc, flag5, flags]

end Sys2Proof
end

