-- ==== Sys2Proof/Laws/PerInstr.lean ====
section
/-! SUPPORT. The family of statements about every instruction as syntax: under any value of `CONTROL_TABLE`, `Ctrl`
reads a control code's byte, and no other, as the control value the code stands for (41_control_decoder.md R118); a start
or stop code has its one byte under every table, and the default rejects it as a control byte (R110, R117). -/
namespace Sys2Proof.Laws

/-- The byte of an instruction, read by `Ctrl`. -/
def TableRow.Statement (i : Instr) : Prop :=
  match i.control? with
  | some c => ∀ t : ControlTable, t.lawful = true → ∀ b, Machine.ctrl t b = .ok c ↔ b = encode t i
  | none =>
    (∀ t : ControlTable, encode t i = encode defaultControlTable i) ∧
      Machine.ctrl defaultControlTable (encode defaultControlTable i) = .error (encode defaultControlTable i)

/-- Every control code meets the statement, by the laws of a table. -/
theorem TableRow.of_control {i : Instr} {c : Control} (hc : i.control? = some c) : TableRow.Statement i := by
  unfold TableRow.Statement
  rw [hc]
  intro t ht b
  rw [Machine.ctrl_eq_ok_iff, ControlTable.lookup_eq_some_iff_encode ht hc]

theorem TableRow.singleCharacter : TableRow.Statement .singleCharacter := ⟨fun _ => rfl, rfl⟩
theorem TableRow.shortFrame : TableRow.Statement .shortFrame := ⟨fun _ => rfl, rfl⟩
theorem TableRow.longControlFrame : TableRow.Statement .longControlFrame := ⟨fun _ => rfl, rfl⟩
theorem TableRow.stop : TableRow.Statement .stop := ⟨fun _ => rfl, rfl⟩
theorem TableRow.sndNke : TableRow.Statement .sndNke := TableRow.of_control rfl
theorem TableRow.sndUd (fcb : Bool) : TableRow.Statement (.sndUd fcb) := TableRow.of_control rfl
theorem TableRow.reqUd1 (fcb : Bool) : TableRow.Statement (.reqUd1 fcb) := TableRow.of_control rfl
theorem TableRow.reqUd2 (fcb : Bool) : TableRow.Statement (.reqUd2 fcb) := TableRow.of_control rfl
theorem TableRow.rspUd (acd dfc : Bool) : TableRow.Statement (.rspUd acd dfc) := TableRow.of_control rfl

end Sys2Proof.Laws
end

