-- ==== Sys2Proof/Laws/Reference.lean ====
section
/-! SUPPORT. Small lemmas of the reference function: the user-data loop and the checksum. -/
namespace Sys2Proof

theorem checksum_nil : checksum [] = 0#8 := rfl

theorem foldl_add_start (bs : List Byte) (x : Byte) :
    bs.foldl (· + ·) x = x + bs.foldl (· + ·) 0#8 := by
  induction bs generalizing x with
  | nil => simp
  | cons b bs ih =>
    rw [List.foldl_cons, List.foldl_cons, ih, ih (0#8 + b)]
    rw [BitVec.zero_add, BitVec.add_assoc]

theorem checksum_cons (b : Byte) (bs : List Byte) : checksum (b :: bs) = b + checksum bs := by
  rw [checksum, List.foldl_cons, foldl_add_start, BitVec.zero_add]
  rfl

namespace Machine

variable (inp : List Byte)

@[simp] theorem sumUserData_zero (i : Nat) (sum : Byte) : sumUserData inp i 0 sum = some sum := rfl

theorem sumUserData_succ_of_lt {i : Nat} (count : Nat) (sum : Byte) (h : i < inp.length) :
    sumUserData inp i (count + 1) sum = sumUserData inp (i + 1) count (sum + inp[i]) := by
  simp [sumUserData, h]

theorem sumUserData_succ_of_le {i : Nat} (count : Nat) (sum : Byte) (h : inp.length ≤ i) :
    sumUserData inp i (count + 1) sum = none := by
  simp [sumUserData, h]

/-- The loop runs out of input exactly when the input ends before the last user-data byte. -/
theorem sumUserData_eq_none_iff (i count : Nat) (sum : Byte) :
    sumUserData inp i count sum = none ↔ 0 < count ∧ inp.length < i + count := by
  induction count generalizing i sum with
  | zero => simp
  | succ count ih =>
    rcases Nat.lt_or_ge i inp.length with h | h
    · rw [sumUserData_succ_of_lt inp count sum h, ih]
      omega
    · rw [sumUserData_succ_of_le inp count sum h]
      simp only [true_iff]
      omega

end Machine
end Sys2Proof
end

