-- ==== Sys2Proof/Laws/Step.lean ====
section
/-! SUPPORT. What one step can do, said once: the four inputs, with a presented byte accepted whether or not it carries a
code. -/
namespace Sys2Proof.Machine

variable {s s' : State}

/-- A step on a presented byte accepts it, with or without a code. -/
theorem step_of_byte {b : Byte} (h : s.fetch.1 = .byte b) : step s = acceptByte b s.fetch.2 := by
  simp only [step, h]
  cases hd : decodeByte s.controlTable b with
  | some i => exact (exec_eq_acceptByte i s.fetch.2).trans (by rw [State.fetch_controlTable, encode_of_decodeByte hd])
  | none => rfl

theorem step_of_reset (h : s.fetch.1 = .reset) : step s = .next s.fetch.2.doReset := by
  simp only [step, h]
theorem step_of_abort (h : s.fetch.1 = .abort) : step s = s.fetch.2.onceReset s.fetch.2.doAbort := by
  simp only [step, h]
theorem step_of_noInput (h : s.fetch.1 = .noInput) : step s = s.fetch.2.onceReset s.fetch.2.doNothing := by
  simp only [step, h]

/-- Everything a step that goes on can be: a reset step, or another one in a machine that has been reset. -/
theorem step_cases (h : step s = .next s') :
    (s.fetch.1 = .reset ∧ s' = s.fetch.2.doReset) ∨
      (s.wasReset = true ∧
        ((s.fetch.1 = .abort ∧ s' = s.fetch.2.doAbort) ∨ (s.fetch.1 = .noInput ∧ s' = s.fetch.2.doNothing) ∨
          ∃ b, s.fetch.1 = .byte b ∧ s' = s.fetch.2.commit (acceptRegs s.controlTable b s.regs))) := by
  cases hf : s.fetch.1 with
  | reset => rw [step_of_reset hf] at h; cases h; exact .inl ⟨rfl, rfl⟩
  | abort =>
    rw [step_of_abort hf, State.onceReset_eq_next_iff, State.fetch_wasReset] at h
    exact .inr ⟨h.1, .inl ⟨rfl, h.2⟩⟩
  | noInput =>
    rw [step_of_noInput hf, State.onceReset_eq_next_iff, State.fetch_wasReset] at h
    exact .inr ⟨h.1, .inr (.inl ⟨rfl, h.2⟩)⟩
  | byte b =>
    rw [step_of_byte hf, acceptByte_eq_next_iff, State.fetch_wasReset, State.fetch_regs, State.fetch_controlTable] at h
    exact .inr ⟨h.1, .inr (.inr ⟨b, rfl, h.2⟩)⟩

/-- A step that goes on leaves a machine that has been reset. -/
theorem step_wasReset (h : step s = .next s') : s'.wasReset = true := by
  rcases step_cases h with ⟨_, rfl⟩ | ⟨hw, ⟨_, rfl⟩ | ⟨_, rfl⟩ | ⟨_, _, rfl⟩⟩ <;> simp_all

/-- No step changes the table the machine was built with. -/
theorem step_controlTable (h : step s = .next s') : s'.controlTable = s.controlTable := by
  rcases step_cases h with ⟨_, rfl⟩ | ⟨_, ⟨_, rfl⟩ | ⟨_, rfl⟩ | ⟨_, _, rfl⟩⟩ <;> simp

/-- Before the first reset, every step but a reset step is refused. -/
theorem step_before_reset (hw : s.wasReset = false) (h : s.fetch.1 ≠ .reset) : step s = .refused .beforeReset := by
  have hw' : s.fetch.2.wasReset = false := by rw [State.fetch_wasReset, hw]
  cases hf : s.fetch.1 with
  | reset => exact absurd hf h
  | abort => rw [step_of_abort hf, State.onceReset_of_not_wasReset hw']
  | noInput => rw [step_of_noInput hf, State.onceReset_of_not_wasReset hw']
  | byte b => rw [step_of_byte hf, acceptByte_of_not_wasReset hw']

end Sys2Proof.Machine
end

