-- ==== Sys2Proof/Tests/Slice0.lean ====
section
/-! SUPPORT. Tests: the checks of WellFormed.lean each refuse an ill-formed term, words decode, single steps and `Parse` give
what spec/95_test_vectors.md says, and every statement with hypotheses has a witness. -/
namespace Sys2Proof.Tests
open Sys2Proof.Machine

/-- Registers in the middle of V44-2, the frame `68 04 04 68 73 05 72 AA 94 16`. -/
def mid (st : FsmState) (pos : Count) (rem sum : Byte) (ciV : Bool) : Regs where
  st := st
  pos := pos
  len := 4
  tot := 10
  totK := true
  rem := rem
  sum := sum
  ctl := 0x73#8
  adr := 0x05#8
  ci := 0x72#8
  ciV := ciV

/-- A machine with given registers, to which the host presents given bytes. -/
def given (r : Regs) (bs : List Byte) : State where
  regs := r
  ev := none
  inputs := bs.map Ports.present
  wasReset := true
  controlTable := defaultControlTable

/-- The ports of an abort beside a byte. -/
def abortBeside (b : Byte) : Ports := ⟨false, true, true, b⟩

/-- The ports of a reset beside an abort and a byte. -/
def resetBeside (b : Byte) : Ports := ⟨true, true, true, b⟩

/-- The ports of a pause. -/
def pause : Ports := ⟨false, false, false, 0xE5#8⟩

/-- A machine that has not been reset, in the middle of what could be a frame. -/
def unreset (inputs : List Ports) : State where
  regs := mid .plCi 6 2 3 false
  ev := none
  inputs := inputs
  wasReset := false
  controlTable := defaultControlTable

/-- Registers and event after one step. -/
def after (s : State) : Option (Regs × Option Event) :=
  match step s with
  | .next s' => some (s'.regs, s'.ev)
  | .fault _ => none
  | .refused _ => none

/-- A substitute value of `CONTROL_TABLE`: the source's five bytes, and other ones for ReqUd2 and RspUd. The base of
ReqUd2 is an argument. -/
def substitute (reqUd2 : Byte) : ControlTable :=
  defaultControlTable.take 5 ++
    [ ⟨reqUd2, .reqUd2 false⟩, ⟨reqUd2 ||| 0x20#8, .reqUd2 true⟩, ⟨0x80#8, .rspUd false false⟩,
      ⟨0x90#8, .rspUd false true⟩, ⟨0xA0#8, .rspUd true false⟩, ⟨0xB0#8, .rspUd true true⟩ ]

/-! ## WellFormed: each check refuses -/

/-- A table with its first row replaced. -/
def withFirst (row : ControlRow) : ControlTable := row :: defaultControlTable.tail

theorem test_lawful_default : ControlTable.lawful defaultControlTable = true := by decide
theorem test_elevenDistinct_refuses :
    ControlTable.elevenDistinct (withFirst ⟨0x53#8, .sndNke⟩) = false := by decide
theorem test_oneSndNke_refuses :
    ControlTable.oneSndNke (⟨0x41#8, .sndNke⟩ :: defaultControlTable) = false := by decide
theorem test_fcbPair_refuses :
    ControlTable.fcbPair [⟨0x53#8, .sndUd true⟩, ⟨0x73#8, .sndUd false⟩] .sndUd = false := by decide
theorem test_rspUdQuad_refuses :
    ControlTable.rspUdQuad (defaultControlTable.take 10 ++ [⟨0x48#8, .rspUd true true⟩]) = false := by decide
theorem test_keepsSourceBytes_refuses :
    ControlTable.keepsSourceBytes (withFirst ⟨0x41#8, .sndNke⟩) = false := by decide
theorem test_instr_wellFormed_refuses : Instr.wellFormed [] .sndNke = false := by decide
theorem test_controlAccepted_refuses :
    Frame.controlAccepted defaultControlTable (.short 0x41#8 0) = false := by decide
theorem test_lengthFits_refuses : Frame.lengthFits (.long 0x40#8 0 (List.replicate 254 0)) = false := by
  rw [Frame.lengthFits, List.length_replicate]; rfl
theorem test_lengthFits_accepts : Frame.lengthFits (.long 0x40#8 0 (List.replicate 253 0)) = true := by
  rw [Frame.lengthFits, List.length_replicate]; rfl
theorem test_every_code_wellFormed (i : Instr) :
    i.wellFormed defaultControlTable = true ∧ i.wellFormed (substitute 0x4B#8) = true := by
  rcases i with _ | _ | _ | _ | _ | f | f | f | ⟨a, d⟩ <;> (try cases f) <;> (try cases a) <;> (try cases d) <;> decide

/-! ## Decoding: words written out from R77, R80 and R73 -/

theorem test_decode_singleCharacter : decodeTableWord 8 0b11100101 = some .singleCharacter := by decide
theorem test_decode_shortFrame : decodeTableWord 8 0b00010000 = some .shortFrame := by decide
theorem test_decode_longControlFrame : decodeTableWord 8 0b01101000 = some .longControlFrame := by decide
theorem test_decode_stop : decodeTableWord 8 0b00010110 = some .stop := by decide
theorem test_decode_sndNke : decodeTableWord 8 0b01000000 = some .sndNke := by decide
theorem test_decode_sndUd : decodeTableWord 8 0b01110011 = some (.sndUd true) := by decide
theorem test_decode_reqUd1 : decodeTableWord 8 0b01111011 = some (.reqUd1 true) := by decide
theorem test_decode_reqUd2 : decodeTableWord 8 0b01011010 = some (.reqUd2 false) := by decide
theorem test_decode_rspUd : decodeTableWord 8 0b00101000 = some (.rspUd true false) := by decide
theorem test_decode_rejects_by_name : decode defaultControlTable [0x60#8] = .error (.notACode 0x60#8) := by decide
theorem test_decode_no_byte : decode defaultControlTable [] = .error .noByte := by decide
/-- R12, R115: under a substitute table ReqUd2 and RspUd have its bytes and lose those of the default. -/
theorem test_decode_under_substitute :
    decodeByte (substitute 0x4B#8) 0x6B#8 = some (.reqUd2 true) ∧
      decodeByte (substitute 0x4B#8) 0xA0#8 = some (.rspUd true false) ∧
      decodeByte (substitute 0x4B#8) 0x73#8 = some (.sndUd true) ∧
      decodeByte (substitute 0x4B#8) 0x7A#8 = none ∧ decodeByte (substitute 0x4B#8) 0x28#8 = none := by decide
/-- No byte matches two rows of the code map. -/
theorem test_codeMap_disjoint :
    ∀ b : Byte, ((codeMap defaultControlTable).filter (fun r => r.covers b)).length ≤ 1 := by decide

/-! ## One step: V44-1 to V44-6, one or two for each code -/

/-- R181, E3. -/
theorem test_singleCharacter_in_idle :
    after (given Regs.reset [0xE5#8]) = some (Regs.reset, some (.ok .singleCharacter 1)) := by decide
/-- R191: 0xE5 as user data (V43-3). -/
theorem test_singleCharacter_as_data :
    after (given (mid .plUd 7 1 0xEA#8 true) [0xE5#8]) = some (mid .plCs 8 0 0xCF#8 true, none) := by decide
/-- V44-1, step 0. -/
theorem test_shortFrame_in_idle :
    after (given Regs.reset [0x10#8]) =
      some ({ Regs.reset with st := .plCtrl, pos := 1, len := 2, tot := 5, totK := true, rem := 2 }, none) := by
  decide
/-- V44-4, the stream `10 10 …`: the second 0x10 is a rejected control byte. -/
theorem test_shortFrame_in_plCtrl :
    after (given (mid .plCtrl 1 2 0 false) [0x10#8]) =
      some (mid .idle 0 2 0 false, some (.err .invalidFormat 2)) := by decide
/-- V44-2, step 0. -/
theorem test_longControlFrame_in_idle :
    after (given Regs.reset [0x68#8]) = some ({ Regs.reset with st := .hdrLen1, pos := 1 }, none) := by decide
/-- V44-2, step 3. -/
theorem test_longControlFrame_in_hdrStart2 :
    after (given (mid .hdrStart2 3 9 9 true) [0x68#8]) = some (mid .plCtrl 4 4 0 false, none) := by decide
/-- V44-2, step 9. -/
theorem test_stop_in_plStop :
    after (given (mid .plStop 9 0 0x94#8 true) [0x16#8]) =
      some (mid .idle 0 0 0x94#8 true,
        some (.ok (.longFrame (.sndUd true) (.configured 5) 0x72#8 ⟨7, 1⟩) 10)) := by decide
/-- V42-1: 0x16 is no start character. -/
theorem test_stop_in_idle :
    after (given Regs.reset [0x16#8]) = some (Regs.reset, some (.err .invalidStartCharacter 1)) := by decide
/-- V41-1 and R188, one for each control code. -/
theorem test_sndNke_in_plCtrl :
    after (given (mid .plCtrl 4 4 0 false) [0x40#8]) =
      some ({ mid .plAddr 5 3 0x40#8 false with ctl := 0x40#8 }, none) := by decide
theorem test_sndUd_in_plCtrl :
    after (given (mid .plCtrl 4 4 0 false) [0x73#8]) = some (mid .plAddr 5 3 0x73#8 false, none) := by decide
theorem test_reqUd1_in_plCtrl :
    after (given (mid .plCtrl 4 4 0 false) [0x5B#8]) =
      some ({ mid .plAddr 5 3 0x5B#8 false with ctl := 0x5B#8 }, none) := by decide
theorem test_reqUd2_in_plCtrl :
    after (given (mid .plCtrl 4 4 0 false) [0x7A#8]) =
      some ({ mid .plAddr 5 3 0x7A#8 false with ctl := 0x7A#8 }, none) := by decide
theorem test_rspUd_in_plCtrl :
    after (given (mid .plCtrl 4 4 0 false) [0x38#8]) =
      some ({ mid .plAddr 5 3 0x38#8 false with ctl := 0x38#8 }, none) := by decide
/-- R12: a machine built with a substitute table takes its byte of ReqUd2 and rejects the default's. -/
theorem test_substitute_in_plCtrl :
    after { given (mid .plCtrl 4 4 0 false) [0x6B#8] with controlTable := substitute 0x4B#8 } =
        some ({ mid .plAddr 5 3 0x6B#8 false with ctl := 0x6B#8 }, none) ∧
      after { given (mid .plCtrl 4 4 0 false) [0x7A#8] with controlTable := substitute 0x4B#8 } =
        some (mid .idle 0 4 0 false, some (.err .invalidFormat 5)) := by decide
/-- R185: L = 1 leaves the shortfall unknown. -/
theorem test_first_length_one :
    after (given { Regs.reset with st := .hdrLen1, pos := 1 } [0x01#8]) =
      some ({ Regs.reset with st := .hdrLen2, pos := 2, len := 1, tot := 7 }, none) := by decide
/-- V44-3: `68 05 06`. -/
theorem test_length_echo_mismatch :
    after (given (mid .hdrLen2 2 0 0 false) [0x06#8]) =
      some (mid .idle 0 0 0 false, some (.err .invalidStartCharacter 3)) := by decide
/-- V44-3: `68 00 00 68` is `InvalidFormat`, `68 00 00 10` is `InvalidStartCharacter`. -/
theorem test_length_zero :
    (after (given { Regs.reset with st := .hdrStart2, pos := 3, tot := 6 } [0x68#8])).map Prod.snd =
        some (some (.err .invalidFormat 4)) ∧
      (after (given { Regs.reset with st := .hdrStart2, pos := 3, tot := 6 } [0x10#8])).map Prod.snd =
        some (some (.err .invalidStartCharacter 4)) := by decide
/-- V44-2, step 5; with L = 2 the checksum comes next (V44-1, step 2). -/
theorem test_address :
    after (given (mid .plAddr 5 3 0x73#8 false) [0x05#8]) = some (mid .plCi 6 2 0x78#8 false, none) ∧
      (after (given (mid .plAddr 2 1 0x7B#8 false) [0x05#8])).map (fun x => x.1.st) = some .plCs := by decide
/-- V44-2, step 6. -/
theorem test_information :
    after (given (mid .plCi 6 2 0x78#8 false) [0x72#8]) = some (mid .plUd 7 1 0xEA#8 true, none) := by decide
/-- V44-2, step 8, and V44-3: `10 7B 08 82`. -/
theorem test_checksum :
    after (given (mid .plCs 8 0 0x94#8 true) [0x94#8]) = some (mid .plStop 9 0 0x94#8 true, none) ∧
      (after (given (mid .plCs 3 0 0x83#8 true) [0x82#8])).map Prod.snd =
        some (some (.err .checksumMismatch 4)) := by decide
/-- V44-6. -/
theorem test_reset_over_abort_over_byte :
    after { given (mid .plCi 6 2 0x78#8 false) [] with inputs := [resetBeside 0xE5#8] } = some (Regs.reset, none) ∧
      after { given (mid .plCi 6 2 0x78#8 false) [] with inputs := [abortBeside 0xE5#8] } =
        some (mid .idle 0 2 0x78#8 false, none) := by decide
/-- R251, U3: before the first reset, an abort and a pause are refused, and a reset runs. -/
theorem test_only_reset_before_reset :
    after (unreset [abortBeside 1]) = none ∧ after (unreset [pause]) = none ∧
      after (unreset [resetBeside 1]) = some (Regs.reset, none) := by decide
/-- V44-5, step 2. -/
theorem test_no_input :
    after { given (mid .hdrLen2 2 0 0 false) [] with inputs := [pause] } = some (mid .hdrLen2 2 0 0 false, none) := by
  decide
/-- V44-2, the event ports of step 9, and the status before it. -/
theorem test_ports_of_long_frame :
    let o := (given (mid .plStop 9 0 0x94#8 true) [0x16#8]).ports
    o.telKind = some 3 ∧ o.ctlVar = some 1 ∧ o.fcb = some true ∧ o.adrCls = some 1 ∧ o.ciOut = some 0x72#8 ∧
      o.udOff = some 7 ∧ o.udLen = some 1 ∧ o.needK = true ∧ o.need = some 1 := by decide

/-! ## Tables and `Parse`: V40-1, V41-2, V42, V43 and L1 -/

theorem test_addr_boundaries :
    [0, 1, 8, 250, 251, 252, 253, 254, 255].map (fun n => adrClsOf (addr (BitVec.ofNat 8 n))) =
      [0, 1, 1, 1, 2, 2, 3, 4, 4] := by decide
theorem test_ctrl_rejects :
    ∀ b ∈ [0x00#8, 0xFF#8, 0x41#8, 0x60#8, 0x52#8, 0x57#8, 0xD3#8, 0x48#8, 0x80#8],
      ctrl defaultControlTable b = .error b := by decide
/-- E4. -/
theorem test_parse_short :
    parse defaultControlTable [0x10#8, 0x7B#8, 0x08#8, 0x83#8, 0x16#8] =
      .ok 5 (.shortFrame (.reqUd1 true) (.configured 8)) := by decide
/-- V43-2: the sum wraps. -/
theorem test_parse_long_wraps :
    parse defaultControlTable
        [0x68#8, 5, 5, 0x68#8, 0x53#8, 0xFF#8, 0, 0xFF#8, 0xFF#8, 0x50#8, 0x16#8] =
      .ok 11 (.longFrame (.sndUd false) .broadcast 0 ⟨7, 2⟩) := by decide
/-- V43-1: L = 2 in the 0x68 form, and L = 3. -/
theorem test_parse_by_length :
    parse defaultControlTable [0x68#8, 2, 2, 0x68#8, 0x40#8, 0xFD#8, 0x3D#8, 0x16#8] =
        .ok 8 (.shortFrame .sndNke .networkLayer) ∧
      parse defaultControlTable [0x68#8, 3, 3, 0x68#8, 0x53#8, 0x01#8, 0x51#8, 0xA5#8, 0x16#8] =
        .ok 9 (.controlFrame (.sndUd false) (.configured 1) 0x51#8) := by decide
/-- V42-2 and V43-5. -/
theorem test_parse_incomplete :
    parse defaultControlTable [0x68#8, 0xFA#8] = .incomplete (.known 254) ∧
      parse defaultControlTable [0x68#8, 0xFF#8, 0xFF#8, 0x68#8] = .incomplete (.known 257) ∧
      parse defaultControlTable [0x10#8, 0x7B#8, 0x08#8, 0x83#8] = .incomplete (.known 1) := by decide
/-- V60-1. -/
theorem test_parse_priority :
    parse defaultControlTable [0x68#8, 1, 1, 0x69#8] = .err .invalidStartCharacter 3 ∧
      parse defaultControlTable [0x10#8, 0x41#8, 0x08#8, 0, 0x17#8] = .err .invalidFormat 1 ∧
      parse defaultControlTable [0x10#8, 0x7B#8, 0x08#8, 0x84#8, 0x17#8] = .err .checksumMismatch 3 := by decide
/-- R259: the embedded frame is lost. -/
theorem test_resynchronisation_loses_a_frame :
    (eventsOf defaultControlTable 6 [0x10#8, 0x10#8, 0x7B#8, 0x08#8, 0x83#8, 0x16#8]).1 =
      .err .invalidFormat 2 :: List.replicate 4 (.err .invalidStartCharacter 1) := by decide
theorem test_fetch_word_runs :
    step (State.reset.withFetchWord 8 0xE5) = exec .singleCharacter State.reset := by rfl

/-! ## Witnesses: a state and operands that meet every hypothesis of a statement -/

theorem witness_ResetStepSetsEveryRegister :
    ({ given (mid .plCi 6 2 0x78#8 false) [] with inputs := [resetBeside 1] } : State).inputs = [resetBeside 1] ∧
      (resetBeside 1).rst = true := by decide
theorem witness_StaleRegistersAreNotObserved :
    (mid .idle 0 1 2 true).st = .idle ∧ (mid .idle 0 1 2 true).pos = 0 ∧ Regs.reset.st = .idle ∧ Regs.reset.pos = 0 ∧
      mid .idle 0 1 2 true ≠ Regs.reset := by decide
/-- One port record for each of the four clauses. -/
theorem witness_StepTakesOneInputByPriority :
    (given Regs.reset [1]).wasReset = true ∧ (given Regs.reset [1]).inputs = [Ports.present 1] ∧
      (resetBeside 1).rst = true ∧ ((abortBeside 1).rst = false ∧ (abortBeside 1).abort = true) ∧
      ((Ports.present 1).rst = false ∧ (Ports.present 1).abort = false ∧ (Ports.present 1).inValid = true) ∧
      (pause.rst = false ∧ pause.abort = false ∧ pause.inValid = false) := by decide
theorem witness_AbortKeepsTheOtherRegisters :
    ({ given (mid .plCi 6 2 3 false) [] with inputs := [abortBeside 1] } : State).wasReset = true ∧ (abortBeside 1).rst = false ∧ (abortBeside 1).abort = true ∧
      ({ given (mid .plCi 6 2 3 false) [] with inputs := [abortBeside 1] } : State).inputs = [abortBeside 1] ∧
      (given Regs.reset []).regs.st = .idle ∧ (given Regs.reset []).regs.pos = 0 := by decide
theorem witness_WithoutInputNothingChanges :
    ({ given (mid .plCi 6 2 3 false) [] with inputs := [pause, pause] } : State).wasReset = true ∧ (∀ p ∈ ({ given (mid .plCi 6 2 3 false) [] with inputs := [pause, pause] } : State).inputs,
      p.rst = false ∧ p.abort = false ∧ p.inValid = false) ∧ (mid .plCi 6 2 3 false).st ≠ .idle := by decide
theorem witness_ByteBesideAbortOrResetIsLost :
    ({ given (mid .plCi 6 2 3 false) [] with inputs := [abortBeside 1] } : State).inputs = [abortBeside 1] ∧
      (abortBeside 1).abort = true ∧ (resetBeside 1).rst = true := by decide
/-- A byte, an abort, a pause, an empty queue and a reset, each before the first reset. -/
theorem witness_NoByteBeforeReset :
    (∀ ps ∈ [[Ports.present 1], [abortBeside 1], [pause], [], [resetBeside 1]],
      (unreset ps).wasReset = false ∧ (unreset ps).inputs = ps) ∧
      (Ports.present 1).rst = false ∧ (abortBeside 1).rst = false ∧ pause.rst = false ∧
      (resetBeside 1).rst = true := by decide
theorem witness_ResetMachineNeverStops : State.reset.wasReset = true := by decide
/-- A substitute table, and one whose ReqUd2 has the byte of SHORT_FRAME, each lawful. -/
theorem witness_DecodeAndEncodeAgree :
    (substitute 0x4B#8).lawful = true ∧ encode (substitute 0x4B#8) (.reqUd2 true) = 0x6B#8 ∧
      0x6B#8 ∉ [0xE5#8, 0x10#8, 0x68#8, 0x16#8] ∧ Instr.stop.control? = none ∧
      (substitute 0x10#8).lawful = true ∧ encode (substitute 0x10#8) (.reqUd2 false) = 0x10#8 ∧
      decodeByte (substitute 0x10#8) 0x10#8 = some .shortFrame := by decide
theorem witness_StepRunsTheDecodedCode :
    (given Regs.reset [0x16#8]).inputs = [Ports.present 0x16#8] ∧ decodeByte defaultControlTable 0x16#8 = some .stop ∧
      decodeByte defaultControlTable 0x60#8 = none := by decide
theorem witness_CodeIsAcceptedInEveryState : (given (mid .plUd 7 1 2 true) []).wasReset = true := by decide
/-- For the statements about `IDLE`: R181, R182, R183, and R184 with a byte that opens nothing. -/
theorem witness_idle :
    (given Regs.reset []).wasReset = true ∧ (given Regs.reset []).regs.st = .idle ∧
      Presents (given Regs.reset [0x16#8]) 0x16#8 [] ∧ (0x16#8 ≠ 0xE5#8 ∧ 0x16#8 ≠ 0x10#8 ∧ 0x16#8 ≠ 0x68#8) ∧
      (∀ b ∈ [0x00#8, 0x16#8], b ≠ 0xE5#8 ∧ b ≠ 0x10#8 ∧ b ≠ 0x68#8) := by
  unfold Presents; decide
/-- L = 1 and L = 2, the values where the clauses meet. -/
theorem witness_FirstLengthByteSetsTheTotal :
    Presents (given (mid .hdrLen1 1 0 0 false) [1]) 1 [] ∧ Presents (given (mid .hdrLen1 1 0 0 false) [2]) 2 [] ∧
      (1 : Byte).toNat < 2 := by
  unfold Presents; decide
theorem witness_LengthEchoIsChecked :
    Presents (given (mid .hdrLen2 2 0 0 false) [4]) 4 [] ∧ 4 = (mid .hdrLen2 2 0 0 false).len ∧
      Presents (given (mid .hdrLen2 2 0 0 false) [5]) 5 [] ∧ 5 ≠ (mid .hdrLen2 2 0 0 false).len := by
  unfold Presents; decide
/-- One for each clause, with L = 2 and L = 1 where they meet. -/
theorem witness_SecondStartIsCheckedBeforeLength :
    Presents (given { mid .hdrStart2 3 0 0 false with len := 2 } [0x68#8]) 0x68#8 [] ∧
      2 ≤ ({ mid .hdrStart2 3 0 0 false with len := 2 } : Regs).len.toNat ∧
      Presents (given (mid .hdrStart2 3 0 0 false) [0x69#8]) 0x69#8 [] ∧ 0x69#8 ≠ 0x68#8 ∧
      ({ mid .hdrStart2 3 0 0 false with len := 1 } : Regs).len.toNat < 2 := by
  unfold Presents; decide
theorem witness_ControlByteIsCapturedOrRejected :
    Presents (given (mid .plCtrl 4 4 0 false) [0x53#8]) 0x53#8 [] ∧ ctrlAccepts defaultControlTable 0x53#8 = true ∧
      ctrlAccepts defaultControlTable 0x60#8 = false ∧ (given (mid .plCtrl 4 4 0 false) [0x53#8]).Inv := by
  refine ⟨by unfold Presents; decide, by decide, by decide, by decide, fun _ => ?_⟩
  simp [Regs.Inv, Regs.lengthsAgree, given, mid]
theorem witness_ControlCodesAreCaptured :
    (Instr.rspUd true false).control? = some (.rspUd true false) ∧
      (given (mid .plCtrl 4 4 0 false) []).controlTable.lawful = true ∧ (substitute 0x4B#8).lawful = true ∧
      (given (mid .plCtrl 4 4 0 false) []).wasReset = true ∧ (mid .plCtrl 4 4 0 false).st = .plCtrl := by decide
/-- `rem` = 1 and `rem` = 2, where the next state changes (R189, R190, R191). -/
theorem witness_payload_bytes :
    Presents (given (mid .plAddr 5 3 0 false) [9]) 9 [] ∧ Presents (given (mid .plAddr 5 1 0 false) [9]) 9 [] ∧
      Presents (given (mid .plCi 6 2 0 false) [9]) 9 [] ∧ Presents (given (mid .plCi 6 1 0 false) [9]) 9 [] ∧
      Presents (given (mid .plUd 7 2 0 true) [9]) 9 [] ∧ Presents (given (mid .plUd 7 1 0 true) [9]) 9 [] := by
  unfold Presents; decide
theorem witness_ChecksumByteIsCompared :
    Presents (given (mid .plCs 8 0 7 true) [7]) 7 [] ∧ 7 = (mid .plCs 8 0 7 true).sum ∧
      Presents (given (mid .plCs 8 0 7 true) [8]) 8 [] ∧ 8 ≠ (mid .plCs 8 0 7 true).sum := by
  unfold Presents; decide
/-- L = 2, L = 3 and L = 4, and a wrong byte. -/
theorem witness_StopByteEndsTheFrame :
    (given (mid .plStop 9 0 0 true) [0x17#8]).wasReset = true ∧ (mid .plStop 9 0 0 true).st = .plStop ∧
      ({ mid .plStop 9 0 0 true with len := 2 } : Regs).len = 2 ∧
      ({ mid .plStop 9 0 0 true with len := 3 } : Regs).len = 3 ∧
      ((mid .plStop 9 0 0 true).len ≠ 2 ∧ (mid .plStop 9 0 0 true).len ≠ 3) ∧
      (given (mid .plStop 9 0 0 true) [0x17#8]).inputs = [Ports.present 0x17#8] ∧ 0x17#8 ≠ 0x16#8 := by decide
/-- A telegram and an error, each with the state before it; for the statements about events. -/
theorem witness_events :
    step (given Regs.reset [0xE5#8]) =
        .next { given Regs.reset [] with ev := some (.ok .singleCharacter 1) } ∧
      step (given Regs.reset [0x00#8]) =
        .next { given Regs.reset [] with ev := some (.err .invalidStartCharacter 1) } ∧
      (given Regs.reset [0xE5#8]).wasReset = true ∧ (given Regs.reset [0xE5#8]).Inv :=
  ⟨rfl, rfl, rfl, by decide, fun _ => rfl⟩
/-- The event of one step at `PL_STOP`, with L = 2, L = 3 and L = 4. -/
theorem witness_EventPortsShowTheEvent :
    after (given { mid .plStop 9 0 0 true with len := 2 } [0x16#8]) =
        some ({ mid .idle 0 0 0 true with len := 2 },
          some (.ok (.shortFrame (.sndUd true) (.configured 5)) 10)) ∧
      after (given { mid .plStop 9 0 0 true with len := 3 } [0x16#8]) =
        some ({ mid .idle 0 0 0 true with len := 3 },
          some (.ok (.controlFrame (.sndUd true) (.configured 5) 0x72#8) 10)) ∧
      after (given (mid .plStop 9 0 0 true) [0x16#8]) =
        some (mid .idle 0 0 0 true,
          some (.ok (.longFrame (.sndUd true) (.configured 5) 0x72#8 ⟨7, 1⟩) 10)) := by decide
theorem witness_StatusIsOfTheRegistersBefore :
    (given (mid .plCi 6 2 0 false) []).ports.needK = true ∧ Regs.reset.st = .idle := by decide
theorem witness_UnusedStateCodes : 10 ≤ (10 : BitVec 4).toNat := by decide
theorem witness_AddressClasses :
    (0 : Byte).toNat = 0 ∧ (1 ≤ (1 : Byte).toNat ∧ (250 : Byte).toNat ≤ 250) ∧
      (251 ≤ (251 : Byte).toNat ∧ (252 : Byte).toNat ≤ 252) ∧ (253 : Byte).toNat = 253 ∧
      254 ≤ (254 : Byte).toNat ∧ 254 ≤ (255 : Byte).toNat := by decide
theorem witness_SourceControlBytes :
    (substitute 0x4B#8).lawful = true ∧ ctrl (substitute 0x4B#8) 0x73#8 = .ok (.sndUd true) ∧
      ctrl (substitute 0x4B#8) 0x5B#8 = .ok (.reqUd1 false) := by decide
theorem witness_DecidedControlBytes :
    0x60#8 ∉ [0x40#8, 0x53#8, 0x73#8, 0x5B#8, 0x7B#8, 0x5A#8, 0x7A#8, 0x08#8, 0x18#8, 0x28#8, 0x38#8] := by decide
theorem witness_LawfulTablesAreExhaustiveAndDisjoint :
    ControlTable.lawful defaultControlTable = true ∧ ctrl defaultControlTable 0x73#8 = .ok (.sndUd true) ∧
      ctrl defaultControlTable 0x5B#8 = .ok (.reqUd1 false) ∧ ctrl defaultControlTable 0x7A#8 = .ok (.reqUd2 true) ∧
      ctrl defaultControlTable 0x18#8 = .ok (.rspUd false true) ∧ ctrl defaultControlTable 0x60#8 = .error 0x60#8 := by decide
theorem witness_StepKeepsTheInvariant :
    (given (mid .plCtrl 4 4 0 false) [0x73#8]).Inv ∧
      step (given (mid .plCtrl 4 4 0 false) [0x73#8]) = .next (given (mid .plAddr 5 3 0x73#8 false) []) := by
  refine ⟨⟨by decide, fun _ => ?_⟩, rfl⟩
  simp [Regs.Inv, Regs.lengthsAgree, given, mid]
theorem witness_ResetMeetsTheInvariant : (substitute 0x4B#8).lawful = true := by decide
theorem witness_TableIsFixedAtBuildTime :
    (given Regs.reset [0x10#8]).controlTable = defaultControlTable ∧
      ∃ s', Host.Core.run (coreWith defaultControlTable) 1 (given Regs.reset [0x10#8]) = .next s' := ⟨rfl, _, rfl⟩
/-- A state for each clause: in the payload, at the checksum and at the stop character. -/
theorem witness_InvariantBoundsTheLengths :
    Regs.Inv defaultControlTable (mid .plCtrl 4 4 0 false) ∧ Regs.Inv defaultControlTable (mid .plCs 8 0 0x94#8 true) ∧
      Regs.Inv defaultControlTable (mid .plStop 9 0 0x94#8 true) ∧ 3 ≤ (mid .plStop 9 0 0x94#8 true).len.toNat := by
  refine ⟨?_, ?_, ?_, by decide⟩ <;> simp [Regs.Inv, Regs.lengthsAgree, mid] <;> decide
/-- V44-2 after five, eight and nine bytes. -/
theorem witness_AttemptRegistersSummariseItsBytes :
    (quietly defaultControlTable Regs.reset [0x68#8, 4, 4, 0x68#8, 0x73#8]).map Regs.st = some .plAddr ∧
      (quietly defaultControlTable Regs.reset [0x68#8, 4, 4, 0x68#8, 0x73#8, 5, 0x72#8, 0xAA#8]).map Regs.st = some .plCs ∧
      (quietly defaultControlTable Regs.reset [0x68#8, 4, 4, 0x68#8, 0x73#8, 5, 0x72#8, 0xAA#8, 0x94#8]).map Regs.st =
        some .plStop := by decide
theorem witness_OneAttemptAtATime :
    Presents (given (mid .plCtrl 4 4 0 false) [0x73#8]) 0x73#8 [] ∧ (given (mid .plCtrl 4 4 0 false) [0x73#8]).Inv ∧
      (mid .plCtrl 4 4 0 false).st ≠ .idle ∧
      step (given (mid .plCtrl 4 4 0 false) [0x73#8]) = .next (given (mid .plAddr 5 3 0x73#8 false) []) := by
  refine ⟨by unfold Presents; decide, witness_StepKeepsTheInvariant.1, by decide, rfl⟩
theorem witness_HeaderVerdicts :
    (6 : Byte) ≠ 5 ∧ 0x69#8 ≠ 0x68#8 ∧ (1 : Byte).toNat < 2 ∧ (0x16#8 ≠ 0xE5#8 ∧ 0x16#8 ≠ 0x10#8 ∧ 0x16#8 ≠ 0x68#8) := by
  decide
/-- Every row of the table of R159. -/
theorem witness_IncompleteCounts :
    parse defaultControlTable [] = .incomplete .unknown ∧ parse defaultControlTable [0x68#8] = .incomplete .unknown ∧
      parse defaultControlTable [0x68#8, 1, 1] = .incomplete .unknown ∧
      parse defaultControlTable [0x68#8, 2, 2] = .incomplete (.known 5) ∧
      parse defaultControlTable [0x10#8] = .incomplete (.known 4) := by decide
/-- An `Ok` with more input after it, an `Err` with more input after it, and each with none. -/
theorem witness_ParsePrefixProperty :
    parse defaultControlTable [0xE5#8] = .ok 1 .singleCharacter ∧
      parse defaultControlTable ([0xE5#8] ++ [0x10#8]) = .ok 1 .singleCharacter ∧
      parse defaultControlTable [0x16#8] = .err .invalidStartCharacter 0 ∧
      parse defaultControlTable ([0x16#8] ++ [0x10#8]) = .err .invalidStartCharacter 0 := by decide
/-- A frame of each format, a flipped bit's split, and a proper prefix. -/
theorem witness_SourceLawsHold :
    Frame.wellFormed defaultControlTable .singleCharacter = true ∧ Frame.wellFormed defaultControlTable (.short 0x7B#8 8) = true ∧
      Frame.wellFormed defaultControlTable (.long 0x73#8 5 [0x72#8, 0xAA#8]) = true ∧
      (Frame.short 0x7B#8 8).bytes = [0x10#8, 0x7B#8, 8] ++ [0x83#8, 0x16#8] ∧
      4 < (Frame.short 0x7B#8 8).bytes.length ∧ (5 : Byte) ≠ 6 := by decide
theorem witness_OnlyFramesAreAccepted :
    parse defaultControlTable (Frame.short 0x7B#8 8).bytes = .ok 5 (.shortFrame (.reqUd1 true) (.configured 8)) := by decide
theorem witness_MachineRealisesParse :
    (given Regs.reset [0x10#8, 0x7B#8]).wasReset = true ∧ (given Regs.reset [0x10#8, 0x7B#8]).regs.st = .idle ∧
      (given Regs.reset [0x10#8, 0x7B#8]).regs.pos = 0 ∧
      (given Regs.reset [0x10#8, 0x7B#8]).inputs = [0x10#8, 0x7B#8].map Ports.present ++ [] ∧
      parse defaultControlTable [0x10#8, 0x7B#8] = .incomplete (.known 3) := by decide
theorem witness_StreamEventsAreTheParsedFrames : Regs.reset.st = .idle ∧ Regs.reset.pos = 0 := by decide
theorem witness_DescriptorNamesTheUserData :
    Frame.wellFormed defaultControlTable (.long 0x73#8 5 (0x72#8 :: [0xAA#8])) = true ∧ [0xAA#8] ≠ [] := by decide

end Sys2Proof.Tests
end

section
/-! PROOFS of the family 00_scope.md: what a presented byte runs as, and what any number of steps keeps. -/
namespace Sys2Proof.Machine

section Running
variable {M : Host.Core}

/-- A run that goes on is a step that goes on, and then the rest of the run. -/
theorem run_succ_eq_next_iff {n : Nat} {s s' : M.State} :
    M.run (n + 1) s = .next s' ↔ ∃ s₁, M.step s = .next s₁ ∧ M.run n s₁ = .next s' := by
  rw [Host.Core.run]
  cases M.step s <;> simp

/-- What every step keeps, every run keeps. -/
theorem run_keeps {P : M.State → Prop} (hstep : ∀ s s', M.step s = .next s' → P s → P s') {n : Nat}
    {s s' : M.State} (hrun : M.run n s = .next s') (hs : P s) : P s' := by
  induction n generalizing s with
  | zero => cases hrun; exact hs
  | succ n ih =>
    obtain ⟨s₁, hfirst, hlater⟩ := run_succ_eq_next_iff.mp hrun
    exact ih hlater (hstep s s₁ hfirst hs)

end Running

/-- Settles O52: the table is kept by a step (`step_controlTable`), so by every run. -/
theorem tableIsFixedAtBuildTime : Obligations.TableIsFixedAtBuildTime := by
  refine ⟨fun _ => rfl, rfl, fun t n s s' ht hrun => ?_⟩
  exact run_keeps (M := coreWith t) (P := fun s => State.controlTable s = t)
    (fun _ _ hstep ht => (step_controlTable hstep).trans ht) hrun ht

/-- A step on a presented byte that carries a code runs that code. -/
theorem step_of_decodeByte {s : State} {b : Byte} {i : Instr} (hf : s.fetch.1 = .byte b)
    (hd : decodeByte s.controlTable b = some i) : step s = exec i s.fetch.2 := by
  simp only [step, hf, hd]

/-- Settles O12: the fetched input is the presented byte, and `step` dispatches on its code. -/
theorem stepRunsTheDecodedCode : Obligations.StepRunsTheDecodedCode := by
  intro s b rest hs
  have hfetch : s.fetch = (.byte b, { s with inputs := rest }) := State.fetch_of_cons s hs
  have hbyte : s.fetch.1 = .byte b := congrArg Prod.fst hfetch
  constructor
  · intro i hd
    rw [step_of_decodeByte hbyte hd, hfetch]
  · intro _
    rw [step_of_byte hbyte, hfetch]

end Sys2Proof.Machine
end

section
/-! PROOFS of the family 10_state.md: the step as the FSM's step, the verdicts an accepted byte can give and their counts,
the output ports, and which registers the events of a run depend on. -/
namespace Sys2Proof.Machine

/-! ## Reset values and codes -/

/-- Settles O2: each register of `Regs.reset` as R40 writes it. -/
theorem resetStateValues : Obligations.ResetStateValues :=
  ⟨rfl, rfl, rfl, rfl⟩

/-- Settles O51: the arms of `telKindOf`. -/
theorem telegramKindCodes : Obligations.TelegramKindCodes :=
  ⟨rfl, fun _ _ _ _ => ⟨rfl, rfl, rfl⟩⟩

theorem FsmState.code_toNat_le (st : FsmState) : st.code.toNat ≤ 9 := by
  cases st <;> decide

@[simp] theorem FsmState.ofCode_code (st : FsmState) : FsmState.ofCode st.code = st := by
  cases st <;> rfl

/-- R254: the codes of no state. -/
theorem FsmState.ofCode_of_unused : ∀ c : BitVec 4, 10 ≤ c.toNat → FsmState.ofCode c = .idle := by
  decide

/-- Settles O32: `ofCode` reads back every code of a state, and the six others as `IDLE`. -/
theorem unusedStateCodes : Obligations.UnusedStateCodes :=
  ⟨⟨rfl, rfl, rfl, rfl, rfl, rfl, rfl, rfl, rfl, rfl⟩,
    fun st => ⟨st.code_toNat_le, st.ofCode_code⟩, FsmState.ofCode_of_unused⟩

/-! ## A step of the machine is a step of the FSM -/

section Stepping
variable {s s' : State}

/-- A later reset step is a reaction of the FSM too: `wasReset` holds already. -/
theorem State.doReset_of_wasReset (hw : s.wasReset = true) : s.doReset = s.commit (goOn Regs.reset) := by
  simp [State.doReset, State.commit, hw]

/-- R180: in a machine that has been reset, every step goes on, and it is the FSM's step on the fetched input. -/
theorem step_of_wasReset (hw : s.wasReset = true) :
    step s = .next (s.fetch.2.commit (fsmStep s.controlTable s.regs s.fetch.1)) := by
  have hw' : s.fetch.2.wasReset = true := by rw [State.fetch_wasReset, hw]
  cases hf : s.fetch.1 with
  | reset => rw [step_of_reset hf, State.doReset_of_wasReset hw']; rfl
  | abort => rw [step_of_abort hf, State.onceReset_of_wasReset hw', State.doAbort, State.fetch_regs]; rfl
  | noInput => rw [step_of_noInput hf, State.onceReset_of_wasReset hw', State.doNothing, State.fetch_regs]; rfl
  | byte b =>
    rw [step_of_byte hf, acceptByte_of_wasReset hw', State.fetch_regs, State.fetch_controlTable]; rfl

/-- The event of a step is the event of the FSM's step. -/
theorem step_ev (hw : s.wasReset = true) (h : step s = .next s') :
    s'.ev = (fsmStep s.controlTable s.regs s.fetch.1).2 := by
  rw [step_of_wasReset hw] at h
  cases h
  rfl

/-- The ports of a step are those of the registers before it and of the event it leaves. -/
theorem ports_of_step (hw : s.wasReset = true) (h : step s = .next s') :
    s.ports = Outputs.of s.controlTable s.regs s'.ev := by
  rw [State.ports, if_pos hw, step_ev hw h]

end Stepping

/-! ## Verdicts -/

/-- The verdicts that an accepted byte can give, each in the state whose transition gives it (R181 to R193). -/
inductive Verdict (t : ControlTable) (r : Regs) : Event → Prop
  | singleCharacter (h : r.st = .idle) : Verdict t r (.ok .singleCharacter 1)
  | noStart (h : r.st = .idle) : Verdict t r (.err .invalidStartCharacter 1)
  | lengthEcho (h : r.st = .hdrLen2) : Verdict t r (.err .invalidStartCharacter 3)
  | secondStart (h : r.st = .hdrStart2) : Verdict t r (.err .invalidStartCharacter 4)
  | shortLength (h : r.st = .hdrStart2) : Verdict t r (.err .invalidFormat 4)
  | control (h : r.st = .plCtrl) : Verdict t r (.err .invalidFormat r.eventCount)
  | checksum (h : r.st = .plCs) : Verdict t r (.err .checksumMismatch r.eventCount)
  | noStop (h : r.st = .plStop) : Verdict t r (.err .invalidFormat r.eventCount)
  | telegram (h : r.st = .plStop) : Verdict t r (.ok (r.telegram t) r.eventCount)

section Verdicts
variable {t : ControlTable} {r : Regs} {b : Byte} {e : Event}

theorem verdict_of_acceptRegs (h : (acceptRegs t b r).2 = some e) : Verdict t r e := by
  cases hst : r.st with
  | idle =>
    rw [acceptRegs_idle t b r hst, acceptIdle] at h
    split_ifs at h <;> cases h
    · exact .singleCharacter hst
    · exact .noStart hst
  | hdrLen1 => rw [acceptRegs_hdrLen1 t b r hst] at h; cases h
  | hdrLen2 =>
    rw [acceptRegs_hdrLen2 t b r hst, acceptHdrLen2] at h
    split_ifs at h <;> cases h
    exact .lengthEcho hst
  | hdrStart2 =>
    rw [acceptRegs_hdrStart2 t b r hst, acceptHdrStart2] at h
    split_ifs at h <;> cases h
    · exact .secondStart hst
    · exact .shortLength hst
  | plCtrl =>
    rw [acceptRegs_plCtrl t b r hst, acceptPlCtrl] at h
    split_ifs at h <;> cases h
    exact .control hst
  | plAddr => rw [acceptRegs_plAddr t b r hst] at h; cases h
  | plCi => rw [acceptRegs_plCi t b r hst] at h; cases h
  | plUd => rw [acceptRegs_plUd t b r hst] at h; cases h
  | plCs =>
    rw [acceptRegs_plCs t b r hst, acceptPlCs] at h
    split_ifs at h <;> cases h
    exact .checksum hst
  | plStop =>
    rw [acceptRegs_plStop t b r hst, acceptPlStop] at h
    split_ifs at h <;> cases h
    · exact .telegram hst
    · exact .noStop hst

/-- Only an accepted byte gives an event (R230), and then one of the verdicts. -/
theorem verdict_of_fsmStep {i : Input} (h : (fsmStep t r i).2 = some e) : Verdict t r e := by
  cases i with
  | reset | abort | noInput => cases h
  | byte b => exact verdict_of_acceptRegs h

theorem verdict_of_step {s s' : State} (hw : s.wasReset = true) (h : step s = .next s') (he : s'.ev = some e) :
    Verdict s.controlTable s.regs e :=
  verdict_of_fsmStep ((step_ev hw h).symm.trans he)

/-! ## Event counts -/

/-- The count `k` that an event carries (R25). -/
def Event.count : Event → Count
  | .ok _ k => k
  | .err _ k => k

/-- R25: the invariant pins `pos` wherever a rule writes the count as a number (log 5). -/
theorem Verdict.count_eq (hv : Verdict t r e) (hi : r.Inv t) : e.count = r.pos + 1 := by
  cases hv with
  | singleCharacter h | noStart h =>
    have hpos : r.pos = 0 := by simpa only [Regs.Inv, h] using hi
    rw [hpos]; rfl
  | lengthEcho h =>
    have hpos : r.pos = 2 := by simp only [Regs.Inv, h] at hi; exact hi.1
    rw [hpos]; rfl
  | secondStart h | shortLength h =>
    have hpos : r.pos = 3 := by simp only [Regs.Inv, h] at hi; exact hi.1
    rw [hpos]; rfl
  | control | checksum | noStop | telegram => rfl

theorem Regs.lengthsAgree.pos_le {left : Nat} (h : r.lengthsAgree left) (hleft : 1 ≤ left) : r.pos.toNat ≤ 260 := by
  obtain ⟨-, -, htot, hform⟩ := h
  have hlen : r.len.toNat < 256 := r.len.isLt
  omega

/-- An unfinished attempt has at most 260 bytes: 261 is the longest frame (R25). -/
theorem Regs.Inv.pos_le (hi : r.Inv t) : r.pos.toNat ≤ 260 := by
  unfold Regs.Inv at hi
  split at hi
  · simp [hi]
  · simp [hi.1]
  · simp [hi.1]
  · simp [hi.1]
  all_goals exact hi.1.pos_le (by decide)

theorem Verdict.count_spec (hv : Verdict t r e) (hi : r.Inv t) :
    e.count = r.pos + 1 ∧ 1 ≤ e.count.toNat ∧ e.count.toNat ≤ 261 := by
  have hpos := hi.pos_le
  have hcount := hv.count_eq hi
  have hsucc : e.count.toNat = r.pos.toNat + 1 := by bv_omega
  exact ⟨hcount, by omega, by omega⟩

end Verdicts

/-- Settles O28: the verdict of the step is one of the transition of a state that meets the invariant. -/
theorem eventCountIsPositionPlusOne : Obligations.EventCountIsPositionPlusOne := by
  intro s s' hw ⟨_, hi⟩ hstep
  have hcount : ∀ e, s'.ev = some e →
      e.count = s.regs.pos + 1 ∧ 1 ≤ e.count.toNat ∧ e.count.toNat ≤ 261 :=
    fun e he => (verdict_of_step hw hstep he).count_spec (hi hw)
  exact ⟨fun t k he => hcount (.ok t k) he, fun e k he => hcount (.err e k) he⟩

/-! ## Output ports -/

section OutputPorts
variable (t : ControlTable) (r : Regs) (ev : Option Event)

@[simp] theorem Outputs.of_inReady : (Outputs.of t r ev).inReady = true := by
  rcases ev with _ | ⟨_ | _ | _ | _, _⟩ | _ <;> rfl
@[simp] theorem Outputs.of_evValid : (Outputs.of t r ev).evValid = ev.isSome := by
  rcases ev with _ | ⟨_ | _ | _ | _, _⟩ | _ <;> rfl
@[simp] theorem Outputs.of_busy : (Outputs.of t r ev).busy = r.busy := by
  rcases ev with _ | ⟨_ | _ | _ | _, _⟩ | _ <;> rfl
@[simp] theorem Outputs.of_needK : (Outputs.of t r ev).needK = r.needK := by
  rcases ev with _ | ⟨_ | _ | _ | _, _⟩ | _ <;> rfl
@[simp] theorem Outputs.of_need : (Outputs.of t r ev).need = if r.needK then some r.need else none := by
  rcases ev with _ | ⟨_ | _ | _ | _, _⟩ | _ <;> rfl

end OutputPorts

@[simp] theorem Regs.busy_eq_decide (r : Regs) : r.busy = decide (r.st ≠ .idle) := by
  cases h : r.st <;> simp [Regs.busy, h]

/-- Settles O9: the FSM's step takes one entry off the queue (`State.fetch`) and leaves `wasReset` alone. -/
theorem resetMachineNeverStops : Obligations.ResetMachineNeverStops := by
  intro s hw
  refine ⟨_, step_of_wasReset hw, ?_, ?_, ?_⟩
  · rw [State.commit_wasReset, State.fetch_wasReset, hw]
  · rw [State.commit_inputs, State.fetch_inputs]
  · rw [State.ports, Outputs.of_inReady]

/-- Settles O30: no event changes the status that `Outputs.of` reads from the registers. -/
theorem statusIsOfTheRegistersBefore : Obligations.StatusIsOfTheRegistersBefore := by
  intro s
  have hbusy : s.ports.busy = decide (s.regs.st ≠ .idle) := by rw [State.ports, Outputs.of_busy, Regs.busy_eq_decide]
  have hneedK : s.ports.needK = (decide (s.regs.st ≠ .idle) && s.regs.totK) := by
    rw [State.ports, Outputs.of_needK, Regs.needK, Regs.busy_eq_decide]
  refine ⟨hbusy, hneedK, fun hknown => ?_, fun hidle => ?_⟩
  · rw [State.ports, Outputs.of_needK] at hknown
    rw [State.ports, Outputs.of_need, if_pos hknown, Regs.need]
  · simp [hbusy, hneedK, hidle]

section TelegramKinds
variable (t : ControlTable) {r : Regs}

theorem Regs.telegram_of_len_two (h : r.len = 2) :
    r.telegram t = .shortFrame (controlOf t r.ctl) (addr r.adr) := by
  rw [Regs.telegram, if_pos h]

theorem Regs.telegram_of_len_three (h : r.len = 3) :
    r.telegram t = .controlFrame (controlOf t r.ctl) (addr r.adr) r.ci := by
  rw [Regs.telegram, if_neg (by rw [h]; decide), if_pos h]

theorem Regs.telegram_of_len_other (h2 : r.len ≠ 2) (h3 : r.len ≠ 3) :
    r.telegram t = .longFrame (controlOf t r.ctl) (addr r.adr) r.ci ⟨7, r.len - 3⟩ := by
  rw [Regs.telegram, if_neg h2, if_neg h3]

end TelegramKinds

/-- Settles O29: the ports are `Outputs.of` the event, and a telegram is either the single character or the one that
`PL_STOP` forms from the registers. -/
theorem eventPortsShowTheEvent : Obligations.EventPortsShowTheEvent := by
  intro s s' hw hstep
  rw [ports_of_step hw hstep]
  refine ⟨Outputs.of_evValid _ _ _, fun e k he => ?_, fun tel k he => ?_⟩
  · rw [he]
    exact ⟨rfl, rfl, rfl⟩
  · have hverdict := verdict_of_step hw hstep he
    rw [he]
    cases hverdict with
    | singleCharacter => exact ⟨rfl, rfl, rfl, rfl⟩
    | telegram hst =>
      by_cases h2 : s.regs.len = 2
      · rw [Regs.telegram_of_len_two _ h2]
        exact ⟨rfl, rfl, rfl, hst, h2, by and_intros <;> rfl⟩
      · by_cases h3 : s.regs.len = 3
        · rw [Regs.telegram_of_len_three _ h3]
          exact ⟨rfl, rfl, rfl, hst, h3, by and_intros <;> rfl⟩
        · rw [Regs.telegram_of_len_other _ h2 h3]
          exact ⟨rfl, rfl, rfl, hst, h2, h3, by and_intros <;> rfl⟩

/-! ## Non-interference: the registers that later events depend on -/

/-- Two register files with the same `st` and `pos` agree on the registers that the events to come can depend on, by FSM
state. The rest is left over from earlier attempts: every attempt writes a register before its rules read it. `ci` is
read by the telegram unless L = 2 (R196), and `rem` against `len` says that only such a frame skips `PL_CI` (R189). -/
def Regs.Agree (r₁ r₂ : Regs) : Prop :=
  r₁.st = r₂.st ∧ r₁.pos = r₂.pos ∧
  match r₁.st with
  | .idle | .hdrLen1 => True
  | .hdrLen2 | .hdrStart2 => r₁.len = r₂.len
  | .plCtrl => r₁.len = r₂.len ∧ r₁.rem = r₂.rem ∧ r₁.sum = r₂.sum ∧ r₁.rem = r₁.len
  | .plAddr => r₁.len = r₂.len ∧ r₁.rem = r₂.rem ∧ r₁.sum = r₂.sum ∧ r₁.ctl = r₂.ctl ∧ r₁.rem + 1 = r₁.len
  | .plCi => r₁.len = r₂.len ∧ r₁.rem = r₂.rem ∧ r₁.sum = r₂.sum ∧ r₁.ctl = r₂.ctl ∧ r₁.adr = r₂.adr
  | .plUd =>
    r₁.len = r₂.len ∧ r₁.rem = r₂.rem ∧ r₁.sum = r₂.sum ∧ r₁.ctl = r₂.ctl ∧ r₁.adr = r₂.adr ∧ r₁.ci = r₂.ci
  | .plCs =>
    r₁.len = r₂.len ∧ r₁.sum = r₂.sum ∧ r₁.ctl = r₂.ctl ∧ r₁.adr = r₂.adr ∧ (r₁.len ≠ 2 → r₁.ci = r₂.ci)
  | .plStop => r₁.len = r₂.len ∧ r₁.ctl = r₂.ctl ∧ r₁.adr = r₂.adr ∧ (r₁.len ≠ 2 → r₁.ci = r₂.ci)

/-- Two reactions give the same event, and registers that agree. -/
def Reaction.Agree (x₁ x₂ : Reaction) : Prop :=
  x₁.1.Agree x₂.1 ∧ x₁.2 = x₂.2

section Agreement
variable {t : ControlTable} {r₁ r₂ : Regs}

theorem Regs.agree_of_idle (h₁ : r₁.st = .idle) (h₂ : r₂.st = .idle) (hpos : r₁.pos = r₂.pos) : r₁.Agree r₂ := by
  simp only [Regs.Agree, h₁, h₂, hpos, and_self]

theorem Regs.endAttempt_agree : r₁.endAttempt.Agree r₂.endAttempt :=
  Regs.agree_of_idle rfl rfl rfl

theorem Regs.Agree.eventCount_eq (h : r₁.Agree r₂) : r₁.eventCount = r₂.eventCount := by
  rw [Regs.eventCount, Regs.eventCount, h.2.1]

theorem raise_agree (e : ErrorKind) (k : Count) : Reaction.Agree (raise e k r₁) (raise e k r₂) :=
  ⟨Regs.endAttempt_agree, rfl⟩

theorem report_agree (tel : Telegram) (k : Count) : Reaction.Agree (report tel k r₁) (report tel k r₂) :=
  ⟨Regs.endAttempt_agree, rfl⟩

theorem goOn_agree (h : r₁.Agree r₂) : Reaction.Agree (goOn r₁) (goOn r₂) :=
  ⟨h, rfl⟩

/-- The telegram of R196 does not read `ci` when L = 2. -/
theorem Regs.telegram_congr (hlen : r₁.len = r₂.len) (hctl : r₁.ctl = r₂.ctl) (hadr : r₁.adr = r₂.adr)
    (hci : r₁.len ≠ 2 → r₁.ci = r₂.ci) : r₁.telegram t = r₂.telegram t := by
  by_cases h2 : r₁.len = 2
  · rw [Regs.telegram_of_len_two t h2, Regs.telegram_of_len_two t (hlen ▸ h2), hctl, hadr]
  · simp only [Regs.telegram, ← hlen, ← hctl, ← hadr, ← hci h2]

theorem acceptIdle_agree (b : Byte) : Reaction.Agree (acceptIdle b r₁) (acceptIdle b r₂) := by
  unfold acceptIdle
  split_ifs
  · exact report_agree _ _
  · exact goOn_agree (by simp [Regs.Agree])
  · exact goOn_agree (by simp [Regs.Agree])
  · exact raise_agree _ _

theorem acceptHdrStart2_agree (b : Byte) (hlen : r₁.len = r₂.len) :
    Reaction.Agree (acceptHdrStart2 b r₁) (acceptHdrStart2 b r₂) := by
  unfold acceptHdrStart2
  rw [← hlen]
  split_ifs
  · exact raise_agree _ _
  · exact raise_agree _ _
  · exact goOn_agree (by simp [Regs.Agree, hlen])

/-- After the last payload byte the frame is at its checksum, and otherwise not (R189 to R191). -/
theorem Regs.afterPayload_eq (r : Regs) (more : FsmState) :
    r.afterPayload more = if r.rem = 1 then .plCs else more := by
  have hlast : 0 < (r.rem - 1).toNat ↔ r.rem ≠ 1 := by bv_omega
  simp only [Regs.afterPayload, hlast, ite_not]

/-- The one place where `ci` stays as an earlier attempt left it: the frame has L = 2. -/
theorem acceptPlAddr_agree (b : Byte) (hpos : r₁.pos = r₂.pos) (hlen : r₁.len = r₂.len) (hrem : r₁.rem = r₂.rem)
    (hsum : r₁.sum = r₂.sum) (hctl : r₁.ctl = r₂.ctl) (hone : r₁.rem + 1 = r₁.len) :
    Reaction.Agree (acceptPlAddr b r₁) (acceptPlAddr b r₂) := by
  rw [acceptPlAddr, acceptPlAddr, Regs.afterPayload_eq, Regs.afterPayload_eq, ← hrem]
  split_ifs with hlast
  · have htwo : r₁.len = 2 := by rw [← hone, hlast]; rfl
    exact goOn_agree (by simp [Regs.Agree, hpos, hsum, hctl, ← hlen, htwo])
  · exact goOn_agree (by simp [Regs.Agree, hpos, hlen, hrem, hsum, hctl])

/-- The transition of every state gives the same event on registers that agree, and keeps the agreement. -/
theorem acceptRegs_agree (b : Byte) (h : r₁.Agree r₂) :
    Reaction.Agree (acceptRegs t b r₁) (acceptRegs t b r₂) := by
  have hcount := h.eventCount_eq
  obtain ⟨hst, hpos, hlive⟩ := h
  cases h₁ : r₁.st with
  | idle =>
    rw [acceptRegs_idle t b r₁ h₁, acceptRegs_idle t b r₂ (hst ▸ h₁)]
    exact acceptIdle_agree b
  | hdrLen1 =>
    rw [acceptRegs_hdrLen1 t b r₁ h₁, acceptRegs_hdrLen1 t b r₂ (hst ▸ h₁)]
    exact goOn_agree ⟨rfl, rfl, rfl⟩
  | hdrLen2 =>
    simp only [h₁] at hlive
    rw [acceptRegs_hdrLen2 t b r₁ h₁, acceptRegs_hdrLen2 t b r₂ (hst ▸ h₁), acceptHdrLen2, acceptHdrLen2, ← hlive]
    split_ifs
    · exact goOn_agree (by simp [Regs.Agree])
    · exact raise_agree _ _
  | hdrStart2 =>
    simp only [h₁] at hlive
    rw [acceptRegs_hdrStart2 t b r₁ h₁, acceptRegs_hdrStart2 t b r₂ (hst ▸ h₁)]
    exact acceptHdrStart2_agree b hlive
  | plCtrl =>
    simp only [h₁] at hlive
    obtain ⟨hlen, hrem, hsum, hwhole⟩ := hlive
    rw [acceptRegs_plCtrl t b r₁ h₁, acceptRegs_plCtrl t b r₂ (hst ▸ h₁), acceptPlCtrl, acceptPlCtrl, ← hcount]
    split_ifs
    · exact goOn_agree (by simp [Regs.Agree, hpos, ← hlen, ← hrem, hsum, hwhole])
    · exact raise_agree _ _
  | plAddr =>
    simp only [h₁] at hlive
    obtain ⟨hlen, hrem, hsum, hctl, hone⟩ := hlive
    rw [acceptRegs_plAddr t b r₁ h₁, acceptRegs_plAddr t b r₂ (hst ▸ h₁)]
    exact acceptPlAddr_agree b hpos hlen hrem hsum hctl hone
  | plCi =>
    simp only [h₁] at hlive
    obtain ⟨hlen, hrem, hsum, hctl, hadr⟩ := hlive
    rw [acceptRegs_plCi t b r₁ h₁, acceptRegs_plCi t b r₂ (hst ▸ h₁), acceptPlCi, acceptPlCi,
      Regs.afterPayload_eq, Regs.afterPayload_eq, ← hrem]
    split_ifs <;> exact goOn_agree (by simp [Regs.Agree, hpos, hlen, hrem, hsum, hctl, hadr])
  | plUd =>
    simp only [h₁] at hlive
    obtain ⟨hlen, hrem, hsum, hctl, hadr, hci⟩ := hlive
    rw [acceptRegs_plUd t b r₁ h₁, acceptRegs_plUd t b r₂ (hst ▸ h₁), acceptPlUd, acceptPlUd,
      Regs.afterPayload_eq, Regs.afterPayload_eq, ← hrem]
    split_ifs <;> exact goOn_agree (by simp [Regs.Agree, hpos, hlen, hrem, hsum, hctl, hadr, hci])
  | plCs =>
    simp only [h₁] at hlive
    obtain ⟨hlen, hsum, hctl, hadr, hci⟩ := hlive
    rw [acceptRegs_plCs t b r₁ h₁, acceptRegs_plCs t b r₂ (hst ▸ h₁), acceptPlCs, acceptPlCs, ← hsum, ← hcount]
    split_ifs
    · exact goOn_agree ⟨rfl, congrArg (· + 1) hpos, hlen, hctl, hadr, hci⟩
    · exact raise_agree _ _
  | plStop =>
    simp only [h₁] at hlive
    obtain ⟨hlen, hctl, hadr, hci⟩ := hlive
    rw [acceptRegs_plStop t b r₁ h₁, acceptRegs_plStop t b r₂ (hst ▸ h₁), acceptPlStop, acceptPlStop, ← hcount,
      ← Regs.telegram_congr hlen hctl hadr hci]
    split_ifs
    · exact report_agree _ _
    · exact raise_agree _ _

/-- The same for every input of R180. -/
theorem fsmStep_agree (i : Input) (h : r₁.Agree r₂) : Reaction.Agree (fsmStep t r₁ i) (fsmStep t r₂ i) := by
  cases i with
  | reset => exact goOn_agree (Regs.agree_of_idle rfl rfl rfl)
  | abort => exact goOn_agree Regs.endAttempt_agree
  | byte b => exact acceptRegs_agree b h
  | noInput => exact goOn_agree h

theorem fsmRun_events_eq (inputs : List Input) (h : r₁.Agree r₂) :
    (fsmRun t r₁ inputs).2 = (fsmRun t r₂ inputs).2 := by
  induction inputs generalizing r₁ r₂ with
  | nil => rfl
  | cons i rest ih =>
    obtain ⟨hregs, hevent⟩ := fsmStep_agree (t := t) i h
    simp only [fsmRun, hevent, ih hregs]

end Agreement

/-- Settles O3: any two register files in `IDLE` with `pos` = 0 agree, and a run keeps that. -/
theorem staleRegistersAreNotObserved : Obligations.StaleRegistersAreNotObserved :=
  fun _ _ _ inputs hst₁ hpos₁ hst₂ hpos₂ =>
    fsmRun_events_eq inputs (Regs.agree_of_idle hst₁ hst₂ (hpos₁.trans hpos₂.symm))

end Sys2Proof.Machine
end

section
/-! PROOFS of the family 20_memory.md: what the reference function gives for a well-formed long frame, and where a
descriptor lies in the host's stream. -/
namespace Sys2Proof

/-! ## The bytes of a long frame -/

section LongFrame
variable {t : ControlTable} (c a : Byte) (rest : List Byte)

theorem Frame.bytes_long : (Frame.long c a rest).bytes =
    [0x68#8, BitVec.ofNat 8 (rest.length + 2), BitVec.ofNat 8 (rest.length + 2), 0x68#8] ++
      (c :: a :: rest ++ [checksum (c :: a :: rest), 0x16#8]) := rfl

@[simp] theorem Frame.length_bytes_long : (Frame.long c a rest).bytes.length = rest.length + 8 := by
  simp [Frame.bytes_long]

variable {c a rest}

theorem Frame.wellFormed_long_iff :
    (Frame.long c a rest).wellFormed t = true ↔ (t.lookup c).isSome = true ∧ rest.length + 2 ≤ 255 := by
  simp [Frame.wellFormed, Frame.controlAccepted, Frame.lengthFits]

end LongFrame

namespace Machine

/-! ## The reference function on a whole frame -/

section WholeFrame
variable {t : ControlTable} {inp : List Byte} {h L : Nat}

/-- The loop of R150 adds the bytes it passes to the sum. -/
theorem sumUserData_of_le {i count : Nat} (sum : Byte) (hle : i + count ≤ inp.length) :
    sumUserData inp i count sum = some (sum + checksum ((inp.drop i).take count)) := by
  induction count generalizing i sum with
  | zero => simp [checksum_nil]
  | succ count ih =>
    have hi : i < inp.length := by omega
    rw [sumUserData_succ_of_lt inp count sum hi, ih _ (by omega), List.drop_eq_getElem_cons hi, List.take_succ_cons,
      checksum_cons, BitVec.add_assoc]

/-- R155 to R157: the checksum and the stop character that end a frame. -/
theorem payloadTail_eq_ok {sum total : Byte} {tel : Telegram}
    (hsum : sumUserData inp (h + 3) (L - 3) sum = some total) (hcs : inp[h + L]? = some total)
    (hstop : inp[h + L + 1]? = some 0x16#8) : payloadTail inp h L sum tel = .ok (h + L + 2) tel := by
  simp [payloadTail, hsum, hcs, hstop]

/-- R150 on a whole payload, wherever it begins: its checksum and stop character follow it, and then any bytes. -/
theorem payload_eq_ok {c a : Byte} {rest after : List Byte} {control : Control}
    (hinp : inp.drop h = c :: a :: rest ++ [checksum (c :: a :: rest), 0x16#8] ++ after)
    (hctrl : ctrl t c = .ok control) :
    payload t inp h (rest.length + 2) =
      .ok (h + (rest.length + 2) + 2) (classify control (addr a) rest.head? (rest.length + 2) h) := by
  have hbyte : ∀ k, inp[h + k]? = (c :: a :: rest ++ [checksum (c :: a :: rest), 0x16#8] ++ after)[k]? := fun k => by
    rw [← hinp, List.getElem?_drop]
  have hc : inp[h]? = some c := hbyte 0
  have ha : inp[h + 1]? = some a := hbyte 1
  have hcs : inp[h + (rest.length + 2)]? = some (checksum (c :: a :: rest)) := by simp [hbyte]
  have hstop : inp[h + (rest.length + 2) + 1]? = some 0x16#8 := by simp [Nat.add_assoc, hbyte]
  simp only [payload, hc, hctrl, ha]
  cases rest with
  | nil =>
    exact payloadTail_eq_ok (by simp [checksum_cons, checksum_nil]) hcs hstop
  | cons ci ud =>
    have hci : inp[h + 2]? = some ci := hbyte 2
    have hud : (inp.drop (h + 3)).take ud.length = ud := by simp [← List.drop_drop, hinp]
    have hle : h + 3 + ud.length ≤ inp.length := by
      have := congrArg List.length hinp
      simp only [List.length_drop, List.length_append, List.length_cons] at this
      omega
    have hsum : sumUserData inp (h + 3) ud.length (c + a + ci) = some (checksum (c :: a :: ci :: ud)) := by
      rw [sumUserData_of_le _ hle, hud]
      simp only [checksum_cons, BitVec.add_assoc]
    simp only [hci, List.length_cons, Nat.lt_add_left_iff_pos, Nat.succ_pos, if_true]
    exact payloadTail_eq_ok hsum hcs hstop

/-- The round trip of a `68` frame: `Parse` gives its length and the telegram of its fields, whatever follows it. -/
theorem parse_bytes_long {c a : Byte} {rest : List Byte} (hwf : (Frame.long c a rest).wellFormed t = true)
    (after : List Byte) :
    parse t ((Frame.long c a rest).bytes ++ after) = .ok (Frame.long c a rest).bytes.length
      (classify (controlOf t c) (addr a) rest.head? (rest.length + 2) 4) := by
  obtain ⟨haccepted, hfits⟩ := Frame.wellFormed_long_iff.mp hwf
  obtain ⟨control, hlookup⟩ := Option.isSome_iff_exists.mp haccepted
  have hctrl := ctrl_of_lookup_some t c hlookup
  have hL : (BitVec.ofNat 8 (rest.length + 2)).toNat = rest.length + 2 := by
    rw [BitVec.toNat_ofNat, Nat.mod_eq_of_lt (by omega)]
  have hheader : parse t ((Frame.long c a rest).bytes ++ after) =
      payload t ((Frame.long c a rest).bytes ++ after) 4 (rest.length + 2) := by
    simp [parse, longHeader, Frame.bytes_long, hL]
  rw [hheader, payload_eq_ok rfl hctrl, controlOf_of_ctrl_ok t c hctrl, Frame.length_bytes_long]
  congr 1
  omega

end WholeFrame

/-! ## The descriptor -/

/-- R63: the frame's first byte, found from the index of its last byte and the count. -/
theorem frameStart_last {n k : Nat} (hpos : 0 < k) (hk : k < 512) :
    frameStart (n + k - 1) (BitVec.ofNat 9 k) = n := by
  rw [frameStart, BitVec.toNat_ofNat, Nat.mod_eq_of_lt hk]
  omega

/-- R163: a descriptor with offset 7 and the data's length denotes the user data of a long frame. -/
theorem UserData.slice_bytes_long {d : UserData} {c a ci : Byte} {ud : List Byte} (after : List Byte)
    (hoff : d.off = 7) (hlen : d.len.toNat = ud.length) :
    d.slice ((Frame.long c a (ci :: ud)).bytes ++ after) = ud := by
  simp [UserData.slice, hoff, hlen, Frame.bytes_long]

/-- Settles O50: the round trip of the frame gives the descriptor, and R63's index formula the frame in the stream. -/
theorem descriptorNamesTheUserData : Obligations.DescriptorNamesTheUserData := by
  intro t before after c a ci ud f hwf hud
  obtain ⟨-, hfits⟩ := Frame.wellFormed_long_iff.mp hwf
  have hbound : ud.length + 3 ≤ 255 := hfits
  have hlen : (BitVec.ofNat 8 ud.length).toNat = ud.length := by
    rw [BitVec.toNat_ofNat, Nat.mod_eq_of_lt (by omega)]
  have hlong : (ci :: ud).length + 2 ≠ 3 := by
    have := List.length_pos_iff.mpr hud
    simp only [List.length_cons]
    omega
  have hk : f.bytes.length = ud.length + 9 := Frame.length_bytes_long c a (ci :: ud)
  refine ⟨controlOf t c, ⟨7, BitVec.ofNat 8 ud.length⟩, ?_, rfl, hlen, ?_⟩
  · rw [parse_bytes_long hwf after, List.head?_cons, classify, if_neg hlong]
    rfl
  · rw [UserData.inStream, frameStart_last (by omega) (by omega), List.append_assoc, List.drop_left]
    exact UserData.slice_bytes_long after rfl hlen

end Machine
end Sys2Proof
end

section
/-! PROOFS of the family 30_encoding.md: the code map reads back what the encoder writes, the round trip of every
well-formed frame, and the inversion of the reference function: what an accepted input begins with. -/
namespace Sys2Proof
open Sys2Proof.Machine

/-! ## The code map reads back the encoder -/

/-- Settles O10: the decoder on each written-out word. -/
theorem wordsDecodeToTheirCodes : Obligations.WordsDecodeToTheirCodes := by
  unfold Obligations.WordsDecodeToTheirCodes
  decide

/-- The control code that stands for a control value. -/
def Control.instr : Control → Instr
  | .sndNke => .sndNke
  | .sndUd f => .sndUd f
  | .reqUd1 f => .reqUd1 f
  | .reqUd2 f => .reqUd2 f
  | .rspUd a d => .rspUd a d

theorem Instr.eq_instr_of_control? {i : Instr} {c : Control} (h : i.control? = some c) : i = c.instr := by
  cases i <;> cases h <;> rfl

section CodeMap
variable {t : ControlTable} {b : Byte} {i : Instr} {c : Control}

/-- The code at the front of a sequence is the code of its first byte, whatever follows (R83). -/
theorem decode_cons_eq_ok_iff {rest : List Byte} :
    decode t (b :: rest) = .ok (i, rest) ↔ decodeByte t b = some i := by
  rw [decode]
  cases decodeByte t b <;> simp

theorem exists_decodeByte_of_covers {row : CodeRow} (hrow : row ∈ codeMap t) (hcovers : row.covers b = true) :
    ∃ j, decodeByte t b = some j := by
  rw [← Option.isSome_iff_exists, decodeByte, Option.isSome_map, List.find?_isSome]
  exact ⟨row, hrow, hcovers⟩

/-- R118 (3): the pattern of a code with `fcb` has that flag 0. -/
theorem ControlTable.codeOf_flag_of_fcbPair {variant : Bool → Control} (h : t.fcbPair variant = true) :
    (t.codeOf (variant false)).getLsbD 5 = false := by
  unfold ControlTable.fcbPair at h
  split at h
  · next b0 b1 h0 _ =>
    rw [ControlTable.codeOf_of_codesOf h0]
    simp only [Bool.and_eq_true, Bool.not_eq_true'] at h
    exact h.1
  · cases h

/-- R118 (4): the pattern of RspUd has both its flags 0. -/
theorem ControlTable.codeOf_flags_of_rspUdQuad (h : t.rspUdQuad = true) :
    (t.codeOf (.rspUd false false)).getLsbD 5 = false ∧ (t.codeOf (.rspUd false false)).getLsbD 4 = false := by
  unfold ControlTable.rspUdQuad at h
  split at h
  · next b00 b01 b10 b11 h00 _ _ _ =>
    rw [ControlTable.codeOf_of_codesOf h00]
    simp only [Bool.and_eq_true, Bool.not_eq_true'] at h
    obtain ⟨⟨⟨hflags, -⟩, -⟩, -⟩ := h
    exact hflags
  · cases h

/-- The flags of a code lie outside the mask of its row, and its pattern inside, so the row covers the encoding. -/
theorem exists_row_covers_encode (h : t.lawful = true) (i : Instr) :
    ∃ row ∈ codeMap t, row.covers (encode t i) = true := by
  have whole : ∀ p : Byte, p &&& 0xFF#8 = p := by decide
  have masked5 : ∀ (p : Byte) (f : Bool), p.getLsbD 5 = false → (p ||| flagBit 5 f) &&& 0xDF#8 = p := by decide
  have masked54 : ∀ (p : Byte) (a d : Bool), p.getLsbD 5 = false ∧ p.getLsbD 4 = false →
      (p ||| flagBit 5 a ||| flagBit 4 d) &&& 0xCF#8 = p := by decide
  obtain ⟨-, -, hsndUd, hreqUd1, hreqUd2, hrspUd, -⟩ := ControlTable.lawful_parts h
  simp only [codeMap, CodeRow.covers, beq_iff_eq]
  cases i with
  | singleCharacter | shortFrame | longControlFrame | stop => simp
  | sndNke => simp [encode, whole]
  | sndUd f => simp [encode, masked5 _ f (ControlTable.codeOf_flag_of_fcbPair hsndUd)]
  | reqUd1 f => simp [encode, masked5 _ f (ControlTable.codeOf_flag_of_fcbPair hreqUd1)]
  | reqUd2 f => simp [encode, masked5 _ f (ControlTable.codeOf_flag_of_fcbPair hreqUd2)]
  | rspUd a d => simp [encode, masked54 _ a d (ControlTable.codeOf_flags_of_rspUdQuad hrspUd)]

/-- R80, R73: the start and stop codes have their four bytes under every table. -/
theorem encode_mem_of_control?_none (h : i.control? = none) :
    encode t i ∈ [0xE5#8, 0x10#8, 0x68#8, 0x16#8] := by
  cases i with
  | singleCharacter | shortFrame | longControlFrame | stop => simp
  | sndNke | sndUd | reqUd1 | reqUd2 | rspUd => cases h

/-- A start or stop code reads back under every table: its row comes before those of the control codes (log 9). -/
theorem decodeByte_encode_of_control?_none (h : i.control? = none) : decodeByte t (encode t i) = some i := by
  cases i with
  | singleCharacter | shortFrame | longControlFrame | stop => simp [decodeByte, codeMap, CodeRow.covers]
  | sndNke | sndUd | reqUd1 | reqUd2 | rspUd => cases h

/-- A control code reads back unless its byte is a start or stop code: some row covers the byte, the code it gives has
the same byte, and a lawful table gives a byte one control value. -/
theorem decodeByte_encode_of_control (ht : t.lawful = true) (hc : i.control? = some c)
    (hfree : encode t i ∉ [0xE5#8, 0x10#8, 0x68#8, 0x16#8]) : decodeByte t (encode t i) = some i := by
  obtain ⟨row, hrow, hcovers⟩ := exists_row_covers_encode ht i
  obtain ⟨j, hj⟩ := exists_decodeByte_of_covers hrow hcovers
  have hbyte : encode t j = encode t i := encode_of_decodeByte hj
  cases hd : j.control? with
  | none => exact absurd (hbyte ▸ encode_mem_of_control?_none hd) hfree
  | some d =>
    have hi : t.lookup (encode t i) = some c := (ControlTable.lookup_eq_some_iff_encode ht hc).mpr rfl
    have hlookup : t.lookup (encode t i) = some d := (ControlTable.lookup_eq_some_iff_encode ht hd).mpr hbyte.symm
    have hcd : c = d := Option.some.inj (hi.symm.trans hlookup)
    rw [hj, Instr.eq_instr_of_control? hc, Instr.eq_instr_of_control? hd, hcd]

theorem decodeByte_encode (ht : t.lawful = true)
    (hfree : i.control? = none ∨ encode t i ∉ [0xE5#8, 0x10#8, 0x68#8, 0x16#8]) :
    decodeByte t (encode t i) = some i := by
  cases hc : i.control? with
  | none => exact decodeByte_encode_of_control?_none hc
  | some c => exact decodeByte_encode_of_control ht hc (hfree.resolve_left (by simp [hc]))

end CodeMap

theorem defaultControlTable_lawful : defaultControlTable.lawful = true := by decide

/-- The default table takes none of its bytes from the start and stop codes (R110). -/
theorem default_encode_free (i : Instr) :
    i.control? = none ∨ encode defaultControlTable i ∉ [0xE5#8, 0x10#8, 0x68#8, 0x16#8] := by
  have hnone : ∀ b ∈ [0xE5#8, 0x10#8, 0x68#8, 0x16#8], defaultControlTable.lookup b = none := by decide
  cases hc : i.control? with
  | none => exact .inl rfl
  | some c =>
    refine .inr fun hmem => ?_
    have hsome := (ControlTable.lookup_eq_some_iff_encode defaultControlTable_lawful hc).mpr rfl
    exact absurd ((hnone _ hmem).symm.trans hsome) nofun

/-- Settles O11: `encode_of_decodeByte` one way, `decodeByte_encode` the other; the default table has no clash. -/
theorem decodeAndEncodeAgree : Obligations.DecodeAndEncodeAgree := by
  refine ⟨fun b i rest => ?_, fun t b i rest ht => ⟨fun h => ?_, ?_⟩⟩
  · rw [decode_cons_eq_ok_iff]
    refine ⟨fun h => (encode_of_decodeByte h).symm, ?_⟩
    rintro rfl
    exact decodeByte_encode defaultControlTable_lawful (default_encode_free i)
  · exact (encode_of_decodeByte (decode_cons_eq_ok_iff.mp h)).symm
  · rintro rfl hfree
    exact decode_cons_eq_ok_iff.mpr (decodeByte_encode ht hfree)

namespace Machine

/-! ## The round trip of every well-formed frame -/

section RoundTrip
variable {t : ControlTable}

/-- `Classify` gives the telegram of a `68` frame, by its length alone (R160 to R163). -/
theorem classify_eq_telegramOf_long (c a : Byte) (rest : List Byte) :
    classify (controlOf t c) (addr a) rest.head? (rest.length + 2) 4 = telegramOf t (.long c a rest) := by
  match rest with
  | [] => rfl
  | [_] => rfl
  | _ :: _ :: _ => simp [classify, telegramOf]

/-- The round trip of a `10` frame (R72). -/
theorem parse_bytes_short {c a : Byte} (haccepted : (t.lookup c).isSome = true) (after : List Byte) :
    parse t ((Frame.short c a).bytes ++ after) = .ok 5 (telegramOf t (.short c a)) := by
  obtain ⟨control, hlookup⟩ := Option.isSome_iff_exists.mp haccepted
  have hctrl := ctrl_of_lookup_some t c hlookup
  have hdispatch : parse t ((Frame.short c a).bytes ++ after) =
      payload t ((Frame.short c a).bytes ++ after) 1 2 := by
    simp [parse, Frame.bytes]
  have hpayload := payload_eq_ok (inp := (Frame.short c a).bytes ++ after) (h := 1) (rest := []) rfl hctrl
  rw [hdispatch, telegramOf, controlOf_of_ctrl_ok t c hctrl]
  exact hpayload

/-- R166 (1): a well-formed frame of any format parses to its length and telegram, whatever follows it. -/
theorem parse_bytes {f : Frame} (hwf : f.wellFormed t = true) (after : List Byte) :
    parse t (f.bytes ++ after) = .ok f.bytes.length (telegramOf t f) := by
  cases f with
  | singleCharacter => rfl
  | short c a =>
    have haccepted : (t.lookup c).isSome = true := by
      simpa [Frame.wellFormed, Frame.controlAccepted, Frame.lengthFits] using hwf
    exact parse_bytes_short haccepted after
  | long c a rest => rw [parse_bytes_long hwf, classify_eq_telegramOf_long]

end RoundTrip

/-! ## What an accepted input begins with -/

section Accepted
variable {t : ControlTable} {inp : List Byte} {h L k : Nat} {tel : Telegram}

theorem drop_eq_cons_cons {n : Nat} {x y : Byte} (hx : inp[n]? = some x) (hy : inp[n + 1]? = some y) :
    inp.drop n = x :: y :: inp.drop (n + 2) := by
  obtain ⟨hn, rfl⟩ := List.getElem?_eq_some_iff.mp hx
  obtain ⟨hn', rfl⟩ := List.getElem?_eq_some_iff.mp hy
  rw [List.drop_eq_getElem_cons hn, List.drop_eq_getElem_cons hn']

/-- An accepted payload ends with the sum the loop gives, and the stop character (R155 to R157). -/
theorem ending_of_payloadTail_ok {sum : Byte} {given : Telegram}
    (hok : payloadTail inp h L sum given = .ok k tel) :
    ∃ total, sumUserData inp (h + 3) (L - 3) sum = some total ∧ inp[h + L]? = some total ∧
      inp[h + L + 1]? = some 0x16#8 := by
  unfold payloadTail at hok
  split at hok
  · cases hok
  next total hsum =>
  split at hok
  · cases hok
  next cs hcs =>
  split_ifs at hok with hne
  rw [not_not] at hne
  subst hne
  split at hok
  · cases hok
  next stop hstop =>
  split_ifs at hok with hend
  rw [not_not] at hend
  exact ⟨cs, hsum, hcs, hend ▸ hstop⟩

/-- An accepted payload has an accepted control byte and an address byte, and a CI byte when L > 2; the rest is for the
tail to accept (R151 to R153). -/
theorem fields_of_payload_ok (hok : payload t inp h L = .ok k tel) :
    ∃ c a control, inp[h]? = some c ∧ ctrl t c = .ok control ∧ inp[h + 1]? = some a ∧
      ((2 < L ∧ ∃ ci given, inp[h + 2]? = some ci ∧ payloadTail inp h L (c + a + ci) given = .ok k tel) ∨
        (L ≤ 2 ∧ ∃ given, payloadTail inp h L (c + a) given = .ok k tel)) := by
  unfold payload at hok
  split at hok
  · cases hok
  next c hc =>
  split at hok
  · cases hok
  next control hctrl =>
  split at hok
  · cases hok
  next a ha =>
  refine ⟨c, a, control, hc, hctrl, ha, ?_⟩
  split_ifs at hok with hlong
  · split at hok
    · cases hok
    next ci hci => exact .inl ⟨hlong, ci, _, hci, hok⟩
  · exact .inr ⟨by omega, _, hok⟩

/-- What R150 accepts at `h` is L payload bytes from an accepted control byte on, their checksum, and the stop
character. -/
theorem drop_eq_of_payload_ok (hL : 2 ≤ L) (hok : payload t inp h L = .ok k tel) :
    ∃ c a rest after, (t.lookup c).isSome = true ∧ rest.length + 2 = L ∧
      inp.drop h = c :: a :: rest ++ [checksum (c :: a :: rest), 0x16#8] ++ after := by
  obtain ⟨c, a, control, hc, hctrl, ha, htail⟩ := fields_of_payload_ok hok
  have haccepted : (t.lookup c).isSome = true := by rw [(ctrl_eq_ok_iff t c).mp hctrl]; rfl
  have hfront := drop_eq_cons_cons hc ha
  suffices hend : ((inp.drop (h + 2)).take (L - 2)).length + 2 = L ∧
      inp[h + L]? = some (checksum (c :: a :: (inp.drop (h + 2)).take (L - 2))) ∧ inp[h + L + 1]? = some 0x16#8 by
    obtain ⟨hlen, hcs, hstop⟩ := hend
    refine ⟨c, a, (inp.drop (h + 2)).take (L - 2), inp.drop (h + L + 2), haccepted, hlen, ?_⟩
    have hback : (inp.drop (h + 2)).drop (L - 2) = inp.drop (h + L) := by
      rw [List.drop_drop, show h + 2 + (L - 2) = h + L by omega]
    calc inp.drop h = c :: a :: inp.drop (h + 2) := hfront
      _ = c :: a :: ((inp.drop (h + 2)).take (L - 2) ++ (inp.drop (h + 2)).drop (L - 2)) := by
        rw [List.take_append_drop]
      _ = _ := by rw [hback, drop_eq_cons_cons hcs hstop]; simp
  obtain ⟨hlong, ci, given, hci, htail⟩ | ⟨hshort, given, htail⟩ := htail
  · obtain ⟨total, hsum, hcs, hstop⟩ := ending_of_payloadTail_ok htail
    obtain ⟨hbound, -⟩ := List.getElem?_eq_some_iff.mp hstop
    obtain ⟨hlt, rfl⟩ := List.getElem?_eq_some_iff.mp hci
    have hrest : (inp.drop (h + 2)).take (L - 2) = inp[h + 2] :: (inp.drop (h + 3)).take (L - 3) := by
      rw [List.drop_eq_getElem_cons hlt, show L - 2 = L - 3 + 1 by omega, List.take_succ_cons]
    rw [sumUserData_of_le _ (by omega)] at hsum
    refine ⟨by simp; omega, ?_, hstop⟩
    rw [hcs, ← hsum, hrest]
    simp only [checksum_cons, BitVec.add_assoc]
  · obtain rfl : L = 2 := by omega
    obtain ⟨total, hsum, hcs, hstop⟩ := ending_of_payloadTail_ok htail
    cases hsum
    exact ⟨by simp, by simpa [checksum_cons, checksum_nil] using hcs, hstop⟩

/-- An accepted `68` input has the header `68 L L 68` with L >= 2, and an accepted payload (R134 to R137). -/
theorem header_of_longHeader_ok (hok : longHeader t inp = .ok k tel) :
    ∃ l : Byte, inp[1]? = some l ∧ inp[2]? = some l ∧ inp[3]? = some 0x68#8 ∧ 2 ≤ l.toNat ∧
      payload t inp 4 l.toNat = .ok k tel := by
  unfold longHeader at hok
  split at hok
  · cases hok
  next l hl =>
  split at hok
  · cases hok
  next echo hecho =>
  split at hok
  · cases hok
  next hsame =>
  rw [not_not] at hsame
  subst hsame
  split at hok
  · cases hok
  next start hstart =>
  split_ifs at hok with hother hshort
  rw [not_not] at hother
  exact ⟨echo, hl, hecho, hother ▸ hstart, not_lt.mp hshort, hok⟩

/-- The dispatch of R130, turned round: the three ways an input can be accepted. -/
theorem parse_ok_cases (hok : parse t inp = .ok k tel) :
    inp[0]? = some 0xE5#8 ∨ (inp[0]? = some 0x10#8 ∧ payload t inp 1 2 = .ok k tel) ∨
      (inp[0]? = some 0x68#8 ∧ longHeader t inp = .ok k tel) := by
  unfold parse at hok
  split at hok
  · cases hok
  next start hstart =>
  split_ifs at hok with hsingle hshort hlong
  · exact .inl (hsingle ▸ hstart)
  · exact .inr (.inl ⟨hshort ▸ hstart, hok⟩)
  · exact .inr (.inr ⟨hlong ▸ hstart, hok⟩)

theorem exists_short_of_payload_ok (hstart : inp[0]? = some 0x10#8) (hok : payload t inp 1 2 = .ok k tel) :
    ∃ f after, Frame.wellFormed t f = true ∧ inp = f.bytes ++ after := by
  obtain ⟨c, a, rest, after, haccepted, hlen, hdrop⟩ := drop_eq_of_payload_ok le_rfl hok
  obtain rfl : rest = [] := List.eq_nil_of_length_eq_zero (by omega)
  refine ⟨.short c a, after, by simp [Frame.wellFormed, Frame.controlAccepted, Frame.lengthFits, haccepted], ?_⟩
  obtain ⟨hlt, hbyte⟩ := List.getElem?_eq_some_iff.mp hstart
  calc inp = inp[0] :: inp.drop 1 := List.drop_eq_getElem_cons hlt
    _ = (Frame.short c a).bytes ++ after := by rw [hbyte, hdrop]; rfl

theorem exists_long_of_longHeader_ok (hstart : inp[0]? = some 0x68#8) (hok : longHeader t inp = .ok k tel) :
    ∃ f after, Frame.wellFormed t f = true ∧ inp = f.bytes ++ after := by
  obtain ⟨l, hl, hecho, hstart2, hL, hpayload⟩ := header_of_longHeader_ok hok
  obtain ⟨c, a, rest, after, haccepted, hlen, hdrop⟩ := drop_eq_of_payload_ok hL hpayload
  have hfits : rest.length + 2 ≤ 255 := by have := l.isLt; omega
  refine ⟨.long c a rest, after, Frame.wellFormed_long_iff.mpr ⟨haccepted, hfits⟩, ?_⟩
  have hlbyte : BitVec.ofNat 8 (rest.length + 2) = l := by rw [hlen, BitVec.ofNat_toNat, BitVec.setWidth_eq]
  calc inp = 0x68#8 :: l :: inp.drop 2 := drop_eq_cons_cons hstart hl
    _ = 0x68#8 :: l :: l :: 0x68#8 :: inp.drop 4 := by rw [drop_eq_cons_cons hecho hstart2]
    _ = (Frame.long c a rest).bytes ++ after := by rw [Frame.bytes_long, hlbyte, hdrop]; simp

/-- R70 to R75: an accepted input begins with a well-formed frame; its length and telegram are then those of the round
trip (`parse_bytes`). -/
theorem exists_frame_of_parse_ok (hok : parse t inp = .ok k tel) :
    ∃ f after, Frame.wellFormed t f = true ∧ inp = f.bytes ++ after := by
  obtain hstart | ⟨hstart, hpayload⟩ | ⟨hstart, hlong⟩ := parse_ok_cases hok
  · obtain ⟨hlt, hbyte⟩ := List.getElem?_eq_some_iff.mp hstart
    exact ⟨.singleCharacter, inp.drop 1, rfl, (List.drop_eq_getElem_cons hlt).trans (by rw [hbyte]; rfl)⟩
  · exact exists_short_of_payload_ok hstart hpayload
  · exact exists_long_of_longHeader_ok hstart hlong

end Accepted

/-- Settles O46: an accepted input begins with a well-formed frame, and the round trip of that frame says which length
and telegram `Parse` gave. -/
theorem onlyFramesAreAccepted : Obligations.OnlyFramesAreAccepted := by
  intro t inp k tel hok
  obtain ⟨f, after, hwf, rfl⟩ := exists_frame_of_parse_ok hok
  rw [parse_bytes hwf after] at hok
  obtain ⟨hk, htel⟩ := ParseResult.ok.inj hok
  exact ⟨f, after, hwf, rfl, hk.symm, htel.symm⟩

end Machine
end Sys2Proof
end

section
/-! PROOFS of the family 40_address_decoder.md: the class of a byte in each of the five ranges. -/
namespace Sys2Proof.Machine

section AddressRanges
variable {b : Byte}

/-- R101. -/
theorem addr_of_eq_zero (h : b.toNat = 0) : addr b = .unconfigured := if_pos h

/-- R102. -/
theorem addr_of_le_250 (hlow : 1 ≤ b.toNat) (hhigh : b.toNat ≤ 250) : addr b = .configured b := by
  rw [addr, if_neg (by omega), if_pos ⟨hlow, hhigh⟩]

/-- R103. -/
theorem addr_of_251_or_252 (h : b.toNat = 251 ∨ b.toNat = 252) : addr b = .reserved := by
  rw [addr, if_neg (by omega), if_neg (by omega), if_pos h]

/-- R104. -/
theorem addr_of_eq_253 (h : b.toNat = 253) : addr b = .networkLayer := by
  rw [addr, if_neg (by omega), if_neg (by omega), if_neg (by omega), if_pos h]

/-- R105. -/
theorem addr_of_254_le (h : 254 ≤ b.toNat) : addr b = .broadcast := by
  rw [addr, if_neg (by omega), if_neg (by omega), if_neg (by omega), if_neg (by omega)]

end AddressRanges

/-- Settles O33: in each range the class is known, and `adrClsOf` gives its code. -/
theorem addressClasses : Obligations.AddressClasses := by
  intro b
  refine ⟨fun h => ?unconfigured, fun hlow hhigh => ?configured, fun hlow hhigh => ?reserved,
    fun h => ?networkLayer, fun h => ?broadcast⟩
  case unconfigured => rw [addr_of_eq_zero h]; exact ⟨rfl, rfl⟩
  case configured => rw [addr_of_le_250 hlow hhigh]; exact ⟨rfl, rfl⟩
  case reserved => rw [addr_of_251_or_252 (by omega)]; exact ⟨rfl, rfl⟩
  case networkLayer => rw [addr_of_eq_253 h]; exact ⟨rfl, rfl⟩
  case broadcast => rw [addr_of_254_le h]; exact ⟨rfl, rfl⟩

end Sys2Proof.Machine
end

section
/-! PROOFS of the family 41_control_decoder.md: which byte `Ctrl` reads as which control value under a lawful table, the
flags in bits 5 and 4, the source's bytes, and the control codes in `PL_CTRL`. -/
namespace Sys2Proof
open Sys2Proof.Machine

/-! ## The flag bits of a byte -/

theorem getLsbD_or_flagBit5 :
    ∀ (p : Byte) (f : Bool), p.getLsbD 5 = false → (p ||| flagBit 5 f).getLsbD 5 = f := by decide

theorem or_flagBit5_and_mask :
    ∀ (p : Byte) (f : Bool), p.getLsbD 5 = false → (p ||| flagBit 5 f) &&& 0xDF#8 = p := by decide

theorem and_mask_or_flagBit5 : ∀ b : Byte, b &&& 0xDF#8 ||| flagBit 5 (b.getLsbD 5) = b := by decide

theorem getLsbD_or_flagBits : ∀ (p : Byte) (a d : Bool), p.getLsbD 5 = false ∧ p.getLsbD 4 = false →
    (p ||| flagBit 5 a ||| flagBit 4 d).getLsbD 5 = a ∧ (p ||| flagBit 5 a ||| flagBit 4 d).getLsbD 4 = d := by
  decide

@[simp] theorem Control.control?_instr (c : Control) : c.instr.control? = some c := by
  cases c <;> rfl

theorem ControlTable.lookup_eq_none_iff {t : ControlTable} {b : Byte} :
    t.lookup b = none ↔ b ∉ t.map ControlRow.code := by
  simp [ControlTable.lookup]

namespace Machine

/-! ## What `Ctrl` answers -/

section Ctrl
variable {t : ControlTable} {b : Byte} {c : Control}

theorem ctrl_eq_error_iff {x : Byte} : ctrl t b = .error x ↔ t.lookup b = none ∧ x = b := by
  unfold ctrl
  cases t.lookup b <;> simp [eq_comm]

/-- R117: a byte in no row is rejected and carried. -/
theorem ctrl_eq_error_of_not_mem (h : b ∉ t.map ControlRow.code) : ctrl t b = .error b :=
  ctrl_of_lookup_none t b (ControlTable.lookup_eq_none_iff.mpr h)

/-- R118: `Ctrl` reads a control value from the byte that encodes it, and from no other. -/
theorem ctrl_eq_ok_iff_encode (ht : t.lawful = true) {i : Instr} (hc : i.control? = some c) :
    ctrl t b = .ok c ↔ b = encode t i := by
  rw [ctrl_eq_ok_iff, ControlTable.lookup_eq_some_iff_encode ht hc]

theorem ctrlAccepts_of_ctrl_ok (h : ctrl t b = .ok c) : ctrlAccepts t b = true := by
  simp only [ctrlAccepts, h]

/-- The bytes that every lawful table has from the source (R118, last sentence). -/
theorem ctrl_sourceBytes (ht : t.lawful = true) :
    ctrl t 0x40#8 = .ok .sndNke ∧ ctrl t 0x53#8 = .ok (.sndUd false) ∧ ctrl t 0x7B#8 = .ok (.reqUd1 true) := by
  obtain ⟨-, -, -, -, -, -, hkeeps⟩ := ControlTable.lawful_parts ht
  simpa only [ControlTable.keepsSourceBytes, Bool.and_eq_true, beq_iff_eq, ← ctrl_eq_ok_iff, and_assoc] using hkeeps

/-- R118 (4). -/
theorem rspUd_flags_of_ctrl_ok (ht : t.lawful = true) {a d : Bool} (h : ctrl t b = .ok (.rspUd a d)) :
    a = b.getLsbD 5 ∧ d = b.getLsbD 4 := by
  obtain ⟨-, -, -, -, -, hquad, -⟩ := ControlTable.lawful_parts ht
  have hb : b = encode t (.rspUd a d) := (ctrl_eq_ok_iff_encode ht rfl).mp h
  obtain ⟨hacd, hdfc⟩ := getLsbD_or_flagBits _ a d (ControlTable.codeOf_flags_of_rspUdQuad hquad)
  rw [hb]
  exact ⟨hacd.symm, hdfc.symm⟩

end Ctrl

section FrameCountBit
variable {t : ControlTable} {b b' : Byte} {variant : Bool → Control} {f : Bool}
  (hdistinct : (t.map ControlRow.code).Nodup) (hpair : t.fcbPair variant = true)
include hdistinct hpair

theorem ctrl_eq_ok_iff_of_fcbPair :
    ctrl t b = .ok (variant f) ↔ b = t.codeOf (variant false) ||| flagBit 5 f := by
  rw [ctrl_eq_ok_iff, ControlTable.lookup_eq_some_iff hdistinct, ControlTable.codes_of_fcbPair hpair,
    List.mem_singleton]

/-- R118 (3), `fcb = b[5]`. -/
theorem fcb_of_ctrl_ok (h : ctrl t b = .ok (variant f)) : f = b.getLsbD 5 := by
  rw [(ctrl_eq_ok_iff_of_fcbPair hdistinct hpair).mp h,
    getLsbD_or_flagBit5 _ f (ControlTable.codeOf_flag_of_fcbPair hpair)]

/-- R118 (3): one byte of a variant with `fcb` gives the other, which differs in bit 5 only. -/
theorem ctrl_eq_ok_of_same_outside_fcb (h : ctrl t b = .ok (variant f)) (hsame : b' &&& 0xDF#8 = b &&& 0xDF#8) :
    ctrl t b' = .ok (variant (b'.getLsbD 5)) := by
  have hpattern : b &&& 0xDF#8 = t.codeOf (variant false) := by
    rw [(ctrl_eq_ok_iff_of_fcbPair hdistinct hpair).mp h]
    exact or_flagBit5_and_mask _ f (ControlTable.codeOf_flag_of_fcbPair hpair)
  rw [ctrl_eq_ok_iff_of_fcbPair hdistinct hpair, ← hpattern, ← hsame, and_mask_or_flagBit5]

end FrameCountBit

/-- Settles O34: a lawful table keeps one byte of each of the three variants, and the other byte of SndUd and of ReqUd1
differs from it in bit 5 only. -/
theorem sourceControlBytes : Obligations.SourceControlBytes := by
  refine ⟨fun t ht => ?lawful, fun b hb => ?neighbours⟩
  case lawful =>
    obtain ⟨hdistinct, -, hsndUd, hreqUd1, -, -, -⟩ := ControlTable.lawful_parts ht
    obtain ⟨h40, h53, h7B⟩ := ctrl_sourceBytes ht
    refine ⟨fun b hb => ⟨hb ▸ h40, rfl, rfl, rfl, rfl⟩, fun b hb => ⟨?_, rfl, rfl, rfl, rfl⟩,
      fun b hb => ⟨?_, rfl, rfl, rfl, rfl⟩⟩
    · exact ctrl_eq_ok_of_same_outside_fcb hdistinct hsndUd h53 (by rcases hb with rfl | rfl <;> rfl)
    · exact ctrl_eq_ok_of_same_outside_fcb hdistinct hreqUd1 h7B (by rcases hb with rfl | rfl <;> rfl)
  case neighbours =>
    apply ctrl_eq_error_of_not_mem
    rcases hb with rfl | rfl | rfl | rfl <;> decide

/-- Settles O35: the rows of the default table that D8 decides, and the bytes in no row. -/
theorem decidedControlBytes : Obligations.DecidedControlBytes := by
  refine ⟨fun b hb => ⟨?reqUd2, rfl, rfl, rfl, rfl⟩, fun b hb => ⟨?rspUd, rfl, rfl, rfl, rfl⟩,
    fun _ hb => ctrl_eq_error_of_not_mem hb⟩
  case reqUd2 => rcases hb with rfl | rfl <;> rfl
  case rspUd => rcases hb with rfl | rfl | rfl | rfl <;> rfl

/-- Settles O36: the byte of a control value is the encoding of its code, and the flags are read off that encoding. -/
theorem lawfulTablesAreExhaustiveAndDisjoint : Obligations.LawfulTablesAreExhaustiveAndDisjoint := by
  refine ⟨defaultControlTable_lawful, fun t ht => ?_⟩
  obtain ⟨hdistinct, -, hsndUd, hreqUd1, hreqUd2, -, -⟩ := ControlTable.lawful_parts ht
  have hbyte : ∀ c b, ctrl t b = .ok c ↔ b = encode t c.instr := fun c _ =>
    ctrl_eq_ok_iff_encode ht c.control?_instr
  exact ⟨fun c => ⟨encode t c.instr, (hbyte c _).mpr rfl, fun b' => (hbyte c b').mp⟩,
    fun _ _ => fcb_of_ctrl_ok hdistinct hsndUd, fun _ _ => fcb_of_ctrl_ok hdistinct hreqUd1,
    fun _ _ => fcb_of_ctrl_ok hdistinct hreqUd2, fun _ _ _ => rspUd_flags_of_ctrl_ok ht,
    fun _ _ h => (ctrl_eq_error_iff.mp h).2⟩

/-! ## The control codes in `PL_CTRL` -/

/-- R188: an accepted control byte is captured, summed and counted. -/
theorem acceptPlCtrl_of_accepts {t : ControlTable} {b : Byte} {r : Regs} (h : ctrlAccepts t b = true) :
    acceptPlCtrl t b r = goOn { r.takePayload b with ctl := b, st := .plAddr } :=
  if_pos h

/-- Settles O21: a code's byte is one that `Ctrl` accepts, and executing the code is accepting that byte. -/
theorem controlCodesAreCaptured : Obligations.ControlCodesAreCaptured := by
  intro i c s hc hw ht hst
  have hok : ctrl s.controlTable (encode s.controlTable i) = .ok c := (ctrl_eq_ok_iff_encode ht hc).mpr rfl
  refine ⟨?_, hok⟩
  rw [exec_eq_acceptByte, acceptByte_of_wasReset hw, acceptRegs_plCtrl _ _ _ hst,
    acceptPlCtrl_of_accepts (ctrlAccepts_of_ctrl_ok hok)]
  rfl

end Machine
end Sys2Proof
end

section
/-! PROOFS of the family 42_frame_dispatch.md: the verdicts of the dispatch and of the header. -/
namespace Sys2Proof.Machine

section Dispatch
variable {t : ControlTable} {b l echo start : Byte} {rest : List Byte}

/-- R132: the dispatch decides `E5` at once. -/
theorem parse_cons_singleCharacter : parse t (0xE5#8 :: rest) = .ok 1 .singleCharacter := rfl

/-- R130: the dispatch hands `68` on to the header. -/
theorem parse_cons_longStart : parse t (0x68#8 :: rest) = longHeader t (0x68#8 :: rest) := rfl

/-- R138: a byte that starts no frame is refused by the dispatch itself. -/
theorem parse_cons_of_no_start (hsingle : b ≠ 0xE5#8) (hshort : b ≠ 0x10#8) (hlong : b ≠ 0x68#8) :
    parse t (b :: rest) = .err .invalidStartCharacter 0 := by
  simp [parse, hsingle, hshort, hlong]

/-- R135: the header compares the length's echo before it looks at any later byte. -/
theorem longHeader_of_echo_ne (hecho : echo ≠ l) :
    longHeader t (b :: l :: echo :: rest) = .err .invalidStartCharacter 2 :=
  if_pos hecho

/-- R136, R137: once the echo agrees, the header checks the second start, and the length only after it. -/
theorem longHeader_of_echo_eq :
    longHeader t (b :: l :: l :: start :: rest) =
      if start ≠ 0x68#8 then .err .invalidStartCharacter 3
      else if l.toNat < 2 then .err .invalidFormat 3
      else payload t (b :: l :: l :: start :: rest) 4 l.toNat :=
  if_neg (not_not_intro rfl)

theorem longHeader_of_start_ne (hstart : start ≠ 0x68#8) :
    longHeader t (b :: l :: l :: start :: rest) = .err .invalidStartCharacter 3 := by
  rw [longHeader_of_echo_eq, if_pos hstart]

theorem longHeader_of_length_lt_two (hl : l.toNat < 2) :
    longHeader t (b :: l :: l :: 0x68#8 :: rest) = .err .invalidFormat 3 := by
  rw [longHeader_of_echo_eq, if_neg (not_not_intro rfl), if_pos hl]

end Dispatch

/-- Settles O42: the dispatch decides the first byte, and the header of `68` its three checks in their order; none of
these verdicts reads a byte after the one that decides it. -/
theorem headerVerdicts : Obligations.HeaderVerdicts := by
  intro t x
  refine ⟨parse_cons_singleCharacter, fun l echo hecho => ?_, fun l start hstart => ?_, fun l hl => ?_,
    fun b hsingle hshort hlong => parse_cons_of_no_start hsingle hshort hlong⟩
  · rw [parse_cons_longStart, longHeader_of_echo_ne hecho]
  · rw [parse_cons_longStart, longHeader_of_start_ne hstart]
  · rw [parse_cons_longStart, longHeader_of_length_lt_two hl]

end Sys2Proof.Machine
end

section
/-! PROOFS of the family 43_payload_checksum.md: what `Payload` answers, the cause of every verdict and shortfall of
`Parse`, and from them the Incomplete counts, R165 and the source's four laws. -/
namespace Sys2Proof.Machine

/-! ## What `Payload` answers -/

section PayloadAnswers
variable {t : ControlTable} {inp : List Byte} {h L : Nat} {c : Byte}

theorem ctrl_ok_of_ctrlAccepts (haccepts : ctrlAccepts t c = true) : ∃ control, ctrl t c = .ok control := by
  rw [ctrlAccepts_eq_isSome, Option.isSome_iff_exists] at haccepts
  obtain ⟨control, hlookup⟩ := haccepts
  exact ⟨control, ctrl_of_lookup_some t c hlookup⟩

theorem ctrl_error_of_not_ctrlAccepts (hrejects : ctrlAccepts t c = false) : ctrl t c = .error c := by
  rw [ctrlAccepts_eq_isSome, Option.isSome_eq_false_iff, Option.isNone_iff_eq_none] at hrejects
  exact ctrl_eq_error_iff.mpr ⟨hrejects, rfl⟩

theorem payload_of_empty (hempty : inp[h]? = none) : payload t inp h L = needMore inp h L := by
  simp only [payload, hempty]

/-- R151: a rejected control byte ends the frame where it stands. -/
theorem payload_of_rejected (hc : inp[h]? = some c) (hrejects : ctrlAccepts t c = false) :
    payload t inp h L = .err .invalidFormat h := by
  simp only [payload, hc, ctrl_error_of_not_ctrlAccepts hrejects]

/-- R158: after an accepted control byte nothing is decided before the payload is whole. -/
theorem payload_of_unfinished (hc : inp[h]? = some c) (haccepts : ctrlAccepts t c = true)
    (hshort : inp.length < h + L) : payload t inp h L = needMore inp h L := by
  obtain ⟨control, hctrl⟩ := ctrl_ok_of_ctrlAccepts haccepts
  obtain ⟨hh, -⟩ := List.getElem?_eq_some_iff.mp hc
  simp only [payload, hc, hctrl]
  split
  · rfl
  next a ha =>
  obtain ⟨ha, -⟩ := List.getElem?_eq_some_iff.mp ha
  rw [if_pos (by omega)]
  split
  · rfl
  next ci hci =>
  obtain ⟨hci, -⟩ := List.getElem?_eq_some_iff.mp hci
  simp only [payloadTail, (sumUserData_eq_none_iff inp (h + 3) (L - 3) _).mpr ⟨by omega, by omega⟩]

/-- R151 to R155: a payload that passes leaves only its end to check, against the sum of its L bytes. -/
theorem payload_of_passes (hL : 2 ≤ L) (hpasses : PayloadPasses t inp h L) :
    ∃ sum tel, payload t inp h L = payloadTail inp h L sum tel ∧
      sumUserData inp (h + 3) (L - 3) sum = some (checksum ((inp.drop h).take L)) := by
  obtain ⟨⟨c, hc, haccepts⟩, hlen⟩ := hpasses
  obtain ⟨control, hctrl⟩ := ctrl_ok_of_ctrlAccepts haccepts
  obtain ⟨a, ha⟩ : ∃ a, inp[h + 1]? = some a := ⟨_, List.getElem?_eq_getElem (by omega)⟩
  have hdrop := drop_eq_cons_cons hc ha
  simp only [payload, hc, hctrl, ha]
  obtain rfl | hlong : L = 2 ∨ 2 < L := by omega
  · refine ⟨c + a, _, rfl, ?_⟩
    rw [hdrop]
    simp [checksum_cons, checksum_nil]
  · obtain ⟨more, rfl⟩ : ∃ more, L = more + 3 := ⟨L - 3, by omega⟩
    have hci : inp[h + 2]? = some inp[h + 2] := List.getElem?_eq_getElem (by omega)
    simp only [if_pos hlong, hci]
    refine ⟨c + a + inp[h + 2], _, rfl, ?_⟩
    rw [sumUserData_of_le _ (by omega), hdrop, List.drop_eq_getElem_cons (i := h + 2) (by omega)]
    simp only [List.take_succ_cons, checksum_cons, BitVec.add_assoc, Nat.add_sub_cancel]

theorem payload_of_checksum_ne {cs : Byte} (hL : 2 ≤ L) (hpasses : PayloadPasses t inp h L)
    (hcs : inp[h + L]? = some cs) (hne : cs ≠ checksum ((inp.drop h).take L)) :
    payload t inp h L = .err .checksumMismatch (h + L) := by
  obtain ⟨sum, tel, hpayload, hsum⟩ := payload_of_passes hL hpasses
  simp only [hpayload, payloadTail, hsum, hcs, if_pos hne]

theorem payload_of_stop_ne {stop : Byte} (hL : 2 ≤ L) (hpasses : PayloadPasses t inp h L)
    (hcs : inp[h + L]? = some (checksum ((inp.drop h).take L))) (hstop : inp[h + L + 1]? = some stop)
    (hne : stop ≠ 0x16#8) : payload t inp h L = .err .invalidFormat (h + L + 1) := by
  obtain ⟨sum, tel, hpayload, hsum⟩ := payload_of_passes hL hpasses
  simp only [hpayload, payloadTail, hsum, hcs, hstop, ne_eq, not_true, if_false, if_pos hne]

end PayloadAnswers

/-! ## Why `Parse` answers what it answers -/

/-- The rows of the table of R159: the inputs that end before a verdict, with the shortfall of each. -/
def EndsEarly (inp : List Byte) (need : Need) : Prop :=
  (inp = [] ∧ need = .unknown) ∨
  (inp = [0x68#8] ∧ need = .unknown) ∨
  (∃ l rest, inp = 0x68#8 :: l :: rest ∧ l.toNat < 2 ∧ inp.length ≤ 3 ∧ need = .unknown) ∨
  (∃ l rest, inp = 0x68#8 :: l :: rest ∧ 2 ≤ l.toNat ∧ inp.length < l.toNat + 6 ∧
    need = .known (l.toNat + 6 - inp.length)) ∨
  (∃ rest, inp = 0x10#8 :: rest ∧ inp.length < 5 ∧ need = .known (5 - inp.length))

/-- The causes of an error verdict, each with the kind and the decision index it gives (R222 to R224). -/
inductive ErrorCause (t : ControlTable) (inp : List Byte) : ErrorKind → Nat → Prop where
  | noStart {b : Byte} (hb : inp[0]? = some b) (hsingle : b ≠ 0xE5#8) (hshort : b ≠ 0x10#8) (hlong : b ≠ 0x68#8) :
      ErrorCause t inp .invalidStartCharacter 0
  | echo {l echo : Byte} (hfront : inp.take 3 = [0x68#8, l, echo]) (hne : echo ≠ l) :
      ErrorCause t inp .invalidStartCharacter 2
  | secondStart {l start : Byte} (hfront : inp.take 4 = [0x68#8, l, l, start]) (hne : start ≠ 0x68#8) :
      ErrorCause t inp .invalidStartCharacter 3
  | length {l : Byte} (hfront : inp.take 4 = [0x68#8, l, l, 0x68#8]) (hl : l.toNat < 2) :
      ErrorCause t inp .invalidFormat 3
  | control {h L : Nat} {c : Byte} (hopens : OpensPayload inp h L) (hc : inp[h]? = some c)
      (hrejects : ctrlAccepts t c = false) : ErrorCause t inp .invalidFormat h
  | checksum {h L : Nat} {cs : Byte} (hopens : OpensPayload inp h L) (hpasses : PayloadPasses t inp h L)
      (hcs : inp[h + L]? = some cs) (hne : cs ≠ checksum ((inp.drop h).take L)) :
      ErrorCause t inp .checksumMismatch (h + L)
  | stop {h L : Nat} {stop : Byte} (hopens : OpensPayload inp h L) (hpasses : PayloadPasses t inp h L)
      (hcs : inp[h + L]? = some (checksum ((inp.drop h).take L))) (hstop : inp[h + L + 1]? = some stop)
      (hne : stop ≠ 0x16#8) : ErrorCause t inp .invalidFormat (h + L + 1)

/-- What an answer of `Parse` says of the input. -/
def Explains (t : ControlTable) (inp : List Byte) : ParseResult → Prop
  | .ok k _ => k ≤ inp.length
  | .err e d => ErrorCause t inp e d
  | .incomplete need => EndsEarly inp need

section Explanations
variable {t : ControlTable} {inp : List Byte} {h L : Nat}

theorem eq_append_drop_of_take_eq {n : Nat} {front : List Byte} (hfront : inp.take n = front) :
    inp = front ++ inp.drop n := by
  rw [← hfront, List.take_append_drop]

theorem OpensPayload.two_le (hopens : OpensPayload inp h L) : 2 ≤ L := by
  obtain ⟨-, -, rfl⟩ | ⟨l, -, hl, -, rfl⟩ := hopens
  · exact le_rfl
  · exact hl

/-- R133, R137: the dispatch and the header hand an input that opens a payload over to `Payload`. -/
theorem parse_of_opensPayload (hopens : OpensPayload inp h L) : parse t inp = payload t inp h L := by
  obtain ⟨hstart, rfl, rfl⟩ | ⟨l, hfront, hl, rfl, rfl⟩ := hopens
  · simp [parse, hstart]
  · rw [eq_append_drop_of_take_eq hfront]
    exact longHeader_of_echo_eq.trans (by rw [if_neg (not_not_intro rfl), if_neg (not_lt.mpr hl)]; rfl)

/-- R158: the bytes missing from an opened frame, in the words of R159. -/
theorem endsEarly_of_opensPayload (hopens : OpensPayload inp h L) (hshort : inp.length < h + L + 2) :
    EndsEarly inp (.known (h + L + 2 - inp.length)) := by
  obtain ⟨hstart, rfl, rfl⟩ | ⟨l, hfront, hl, rfl, rfl⟩ := hopens
  · obtain ⟨rest, rfl⟩ := List.head?_eq_some_iff.mp (List.head?_eq_getElem?.trans hstart)
    exact .inr (.inr (.inr (.inr ⟨rest, rfl, hshort, rfl⟩)))
  · have htotal : 4 + l.toNat + 2 = l.toNat + 6 := by omega
    rw [htotal] at hshort ⊢
    exact .inr (.inr (.inr (.inl ⟨l, _, eq_append_drop_of_take_eq hfront, hl, hshort, rfl⟩)))

/-- A read past the end of an opened frame that is not complete leaves the shortfall of R158. -/
theorem needMore_explained {i : Nat} (hopens : OpensPayload inp h L) (hend : inp[i]? = none) (hi : i < h + L + 2) :
    Explains t inp (needMore inp h L) :=
  endsEarly_of_opensPayload hopens (lt_of_le_of_lt (List.getElem?_eq_none_iff.mp hend) hi)

/-- The end of an opened frame whose payload passes: checksum, then stop character (R155 to R158). -/
theorem payload_explained_of_passes (hopens : OpensPayload inp h L) (hpasses : PayloadPasses t inp h L) :
    Explains t inp (payload t inp h L) := by
  obtain ⟨sum, tel, hpayload, hsum⟩ := payload_of_passes hopens.two_le hpasses
  simp only [hpayload, payloadTail, hsum]
  split
  next hend => exact needMore_explained hopens hend (by omega)
  next cs hcs =>
  split_ifs with hne
  · exact .checksum hopens hpasses hcs hne
  rw [not_not] at hne
  subst hne
  split
  next hend => exact needMore_explained hopens hend (by omega)
  next stop hstop =>
  split_ifs with hne
  · exact .stop hopens hpasses hcs hstop hne
  · exact (List.getElem?_eq_some_iff.mp hstop).1

theorem payload_explained (hopens : OpensPayload inp h L) : Explains t inp (payload t inp h L) := by
  cases hc : inp[h]? with
  | none =>
    rw [payload_of_empty hc]
    exact needMore_explained hopens hc (by omega)
  | some c =>
    cases haccepts : ctrlAccepts t c with
    | false =>
      rw [payload_of_rejected hc haccepts]
      exact .control hopens hc haccepts
    | true =>
      obtain hshort | hwhole := Nat.lt_or_ge inp.length (h + L)
      · rw [payload_of_unfinished hc haccepts hshort]
        exact endsEarly_of_opensPayload hopens (by omega)
      · exact payload_explained_of_passes hopens ⟨⟨c, hc, haccepts⟩, hwhole⟩

/-- R134: an input that ends within the header after its length byte; the shortfall is known when L is at least 2. -/
theorem endsEarly_needLong (l : Byte) {rest : List Byte} (hshort : rest.length ≤ 1) :
    EndsEarly (0x68#8 :: l :: rest) (needLong l.toNat (0x68#8 :: l :: rest).length) := by
  have hlen : (0x68#8 :: l :: rest).length ≤ 3 := Nat.add_le_add_right hshort 2
  unfold needLong
  split_ifs with hl
  · exact .inr (.inr (.inr (.inl ⟨l, rest, rfl, hl, by omega, rfl⟩)))
  · exact .inr (.inr (.inl ⟨l, rest, rfl, not_le.mp hl, hlen, rfl⟩))

/-- An input that begins with `68`: it ends within the header, fails one of the header's checks in their order (R135 to
R137), or opens a payload. -/
theorem parse_explained_of_longStart (rest : List Byte) :
    Explains t (0x68#8 :: rest) (parse t (0x68#8 :: rest)) := by
  match rest with
  | [] => exact .inr (.inl ⟨rfl, rfl⟩)
  | [l] => exact endsEarly_needLong l (Nat.zero_le 1)
  | l :: echo :: rest =>
    obtain hecho | rfl := ne_or_eq echo l
    · rw [parse_cons_longStart, longHeader_of_echo_ne hecho]
      exact .echo rfl hecho
    match rest with
    | [] =>
      have hparse : parse t [0x68#8, echo, echo] = .incomplete (needLong echo.toNat 3) :=
        if_neg (not_not_intro rfl)
      rw [hparse]
      exact endsEarly_needLong echo le_rfl
    | start :: rest =>
      obtain hstart | rfl := ne_or_eq start 0x68#8
      · rw [parse_cons_longStart, longHeader_of_start_ne hstart]
        exact .secondStart rfl hstart
      obtain hl | hl := Nat.lt_or_ge echo.toNat 2
      · rw [parse_cons_longStart, longHeader_of_length_lt_two hl]
        exact .length rfl hl
      · have hopens : OpensPayload (0x68#8 :: echo :: echo :: 0x68#8 :: rest) 4 echo.toNat :=
          .inr ⟨echo, rfl, hl, rfl, rfl⟩
        rw [parse_of_opensPayload hopens]
        exact payload_explained hopens

/-- Every answer of `Parse` is explained: the dispatch of R130, and what it hands on. -/
theorem parse_explained (t : ControlTable) (inp : List Byte) : Explains t inp (parse t inp) := by
  match inp with
  | [] => exact .inl ⟨rfl, rfl⟩
  | b :: rest =>
    obtain rfl | hsingle := eq_or_ne b 0xE5#8
    · exact Nat.le_add_left 1 rest.length
    obtain rfl | hshort := eq_or_ne b 0x10#8
    · have hopens : OpensPayload (0x10#8 :: rest) 1 2 := .inl ⟨rfl, rfl, rfl⟩
      rw [parse_of_opensPayload hopens]
      exact payload_explained hopens
    obtain rfl | hlong := eq_or_ne b 0x68#8
    · exact parse_explained_of_longStart rest
    · rw [parse_cons_of_no_start hsingle hshort hlong]
      exact .noStart rfl hsingle hshort hlong

theorem le_length_of_parse_ok {k : Nat} {tel : Telegram} (hok : parse t inp = .ok k tel) : k ≤ inp.length :=
  (hok ▸ parse_explained t inp : Explains t inp (.ok k tel))

theorem endsEarly_of_parse_incomplete {need : Need} (hinc : parse t inp = .incomplete need) : EndsEarly inp need :=
  (hinc ▸ parse_explained t inp : Explains t inp (.incomplete need))

end Explanations

/-- Settles O43: the shortfall that explains an Incomplete answer is its row of R159. -/
theorem incompleteCounts : Obligations.IncompleteCounts :=
  fun _ _ _ hinc => endsEarly_of_parse_incomplete hinc

/-! ## A verdict is decided by the bytes up to its decision index -/

section DecisionIndex
variable {t : ControlTable} {inp inp' : List Byte} {h L d k n : Nat} {e : ErrorKind} {tel : Telegram}

/-- A cause makes `Parse` give its error. -/
theorem ErrorCause.parse_eq (hcause : ErrorCause t inp e d) : parse t inp = .err e d := by
  cases hcause with
  | noStart hb hsingle hshort hlong =>
    obtain ⟨rest, rfl⟩ := List.head?_eq_some_iff.mp (List.head?_eq_getElem?.trans hb)
    exact parse_cons_of_no_start hsingle hshort hlong
  | echo hfront hne =>
    rw [eq_append_drop_of_take_eq hfront]
    exact longHeader_of_echo_ne hne
  | secondStart hfront hne =>
    rw [eq_append_drop_of_take_eq hfront]
    exact longHeader_of_start_ne hne
  | length hfront hl =>
    rw [eq_append_drop_of_take_eq hfront]
    exact longHeader_of_length_lt_two hl
  | control hopens hc hrejects => rw [parse_of_opensPayload hopens, payload_of_rejected hc hrejects]
  | checksum hopens hpasses hcs hne =>
    rw [parse_of_opensPayload hopens, payload_of_checksum_ne hopens.two_le hpasses hcs hne]
  | stop hopens hpasses hcs hstop hne =>
    rw [parse_of_opensPayload hopens, payload_of_stop_ne hopens.two_le hpasses hcs hstop hne]

/-- An error verdict and its cause are the same thing. -/
theorem parse_eq_err_iff : parse t inp = .err e d ↔ ErrorCause t inp e d :=
  ⟨fun herr => (herr ▸ parse_explained t inp : Explains t inp (.err e d)), ErrorCause.parse_eq⟩

theorem ErrorCause.lt_length (hcause : ErrorCause t inp e d) : d < inp.length := by
  have hlt_of_front {n : Nat} {front : List Byte} (hfront : inp.take n = front) (hn : front.length = n) :
      n ≤ inp.length := by
    rw [← hfront, List.length_take] at hn
    omega
  cases hcause with
  | noStart hb => exact (List.getElem?_eq_some_iff.mp hb).1
  | echo hfront => exact hlt_of_front hfront rfl
  | secondStart hfront => exact hlt_of_front hfront rfl
  | length hfront => exact hlt_of_front hfront rfl
  | control _ hc => exact (List.getElem?_eq_some_iff.mp hc).1
  | checksum _ _ hcs => exact (List.getElem?_eq_some_iff.mp hcs).1
  | stop _ _ _ hstop => exact (List.getElem?_eq_some_iff.mp hstop).1

theorem getElem?_eq_of_take_eq (htake : inp.take n = inp'.take n) {i : Nat} (hi : i < n) : inp[i]? = inp'[i]? := by
  rw [← List.getElem?_take_of_lt hi, htake, List.getElem?_take_of_lt hi]

theorem take_eq_of_take_eq (htake : inp.take n = inp'.take n) {m : Nat} (hm : m ≤ n) : inp.take m = inp'.take m := by
  rw [← Nat.min_eq_left hm, ← List.take_take, htake, List.take_take]

theorem OpensPayload.of_take_eq (hopens : OpensPayload inp h L) (htake : inp.take n = inp'.take n) (hn : h ≤ n) :
    OpensPayload inp' h L := by
  obtain ⟨hstart, rfl, rfl⟩ | ⟨l, hfront, hl, rfl, rfl⟩ := hopens
  · exact .inl ⟨getElem?_eq_of_take_eq htake hn ▸ hstart, rfl, rfl⟩
  · exact .inr ⟨l, take_eq_of_take_eq htake hn ▸ hfront, hl, rfl, rfl⟩

theorem PayloadPasses.of_take_eq (hpasses : PayloadPasses t inp h L) (htake : inp.take n = inp'.take n)
    (hn : h + L < n) : PayloadPasses t inp' h L := by
  obtain ⟨⟨c, hc, haccepts⟩, hlen⟩ := hpasses
  refine ⟨⟨c, (getElem?_eq_of_take_eq htake (by omega)).symm.trans hc, haccepts⟩, ?_⟩
  have hlength := congrArg List.length htake
  simp only [List.length_take] at hlength
  omega

theorem payload_bytes_eq_of_take_eq (htake : inp.take n = inp'.take n) (hn : h + L ≤ n) :
    (inp.drop h).take L = (inp'.drop h).take L := by
  rw [List.take_drop, take_eq_of_take_eq htake hn, List.take_drop]

/-- A cause is read off the bytes up to its decision index. -/
theorem ErrorCause.of_take_eq (hcause : ErrorCause t inp e d) (htake : inp.take (d + 1) = inp'.take (d + 1)) :
    ErrorCause t inp' e d := by
  have hbyte {i : Nat} (hi : i ≤ d) : inp[i]? = inp'[i]? := getElem?_eq_of_take_eq htake (Nat.lt_succ_of_le hi)
  cases hcause with
  | noStart hb hsingle hshort hlong => exact .noStart (hbyte le_rfl ▸ hb) hsingle hshort hlong
  | echo hfront hne => exact .echo (htake ▸ hfront) hne
  | secondStart hfront hne => exact .secondStart (htake ▸ hfront) hne
  | length hfront hl => exact .length (htake ▸ hfront) hl
  | control hopens hc hrejects =>
    exact .control (hopens.of_take_eq htake (Nat.le_succ _)) (hbyte le_rfl ▸ hc) hrejects
  | checksum hopens hpasses hcs hne =>
    refine .checksum (hopens.of_take_eq htake (by omega)) (hpasses.of_take_eq htake (by omega))
      (hbyte le_rfl ▸ hcs) ?_
    rwa [← payload_bytes_eq_of_take_eq htake (by omega)]
  | stop hopens hpasses hcs hstop hne =>
    refine .stop (hopens.of_take_eq htake (by omega)) (hpasses.of_take_eq htake (by omega)) ?_
      (hbyte le_rfl ▸ hstop) hne
    rw [← payload_bytes_eq_of_take_eq htake (by omega), ← hbyte (by omega), hcs]

/-- R165 for an error: its cause goes over to every input with the same bytes up to the decision index. -/
theorem parse_err_of_take_eq (herr : parse t inp = .err e d) (htake : inp.take (d + 1) = inp'.take (d + 1)) :
    parse t inp' = .err e d :=
  ((parse_eq_err_iff.mp herr).of_take_eq htake).parse_eq

/-- R165 for a telegram: the bytes it uses up are a whole frame, which any input that begins with them parses to. -/
theorem parse_ok_of_take_eq (hok : parse t inp = .ok k tel) (htake : inp.take k = inp'.take k) :
    parse t inp' = .ok k tel := by
  obtain ⟨f, after, hwf, rfl, rfl, rfl⟩ := onlyFramesAreAccepted t inp k tel hok
  rw [List.take_left] at htake
  rw [← List.take_append_drop f.bytes.length inp', ← htake]
  exact parse_bytes hwf _

end DecisionIndex

/-- Settles O44: an input and its extension have the same bytes up to any index within the input, and a verdict depends
on no others. -/
theorem parsePrefixProperty : Obligations.ParsePrefixProperty := by
  intro t inp x
  have htake {n : Nat} (hn : n ≤ inp.length) : (inp ++ x).take n = inp.take n := List.take_append_of_le_length hn
  refine ⟨fun k tel hok => ?_, fun e d herr => ?_, fun k tel hok hk => ?_, fun e d herr hd => ?_⟩
  · exact parse_ok_of_take_eq hok (htake (le_length_of_parse_ok hok)).symm
  · exact parse_err_of_take_eq herr (htake (parse_eq_err_iff.mp herr).lt_length).symm
  · exact parse_ok_of_take_eq hok (htake hk)
  · exact parse_err_of_take_eq herr (htake hd)

/-! ## The source's laws -/

/-- The bytes of a frame before its payload: the start character, or the whole header (R72, R73). -/
def headerOf : Frame → List Byte
  | .singleCharacter => []
  | .short _ _ => [0x10#8]
  | .long _ _ rest => [0x68#8, BitVec.ofNat 8 (rest.length + 2), BitVec.ofNat 8 (rest.length + 2), 0x68#8]

section Laws
variable {t : ControlTable} {f : Frame}

/-- R75: a frame with a payload is its header, the payload, and the checksum and stop character. -/
theorem bytes_eq_headerOf_payload (hf : f ≠ .singleCharacter) :
    f.bytes = headerOf f ++ f.payload ++ [checksum f.payload, 0x16#8] := by
  cases f with
  | singleCharacter => exact absurd rfl hf
  | short c a => rfl
  | long c a rest => rfl

theorem opensPayload_headerOf (hwf : f.wellFormed t = true) (hf : f ≠ .singleCharacter) (after : List Byte) :
    OpensPayload (headerOf f ++ after) (headerOf f).length f.payload.length := by
  cases f with
  | singleCharacter => exact absurd rfl hf
  | short c a => exact .inl ⟨rfl, rfl, rfl⟩
  | long c a rest =>
    obtain ⟨-, hfits⟩ := Frame.wellFormed_long_iff.mp hwf
    have hL : (BitVec.ofNat 8 (rest.length + 2)).toNat = rest.length + 2 := by
      rw [BitVec.toNat_ofNat, Nat.mod_eq_of_lt (by omega)]
    exact .inr ⟨_, rfl, by omega, rfl, hL.symm⟩

theorem payload_begins_with_accepted (hwf : f.wellFormed t = true) (hf : f ≠ .singleCharacter) :
    ∃ c, f.payload[0]? = some c ∧ ctrlAccepts t c = true := by
  obtain ⟨hcontrol, -⟩ := Bool.and_eq_true_iff.mp hwf
  cases f with
  | singleCharacter => exact absurd rfl hf
  | short c a => exact ⟨c, rfl, (ctrlAccepts_eq_isSome t c).trans hcontrol⟩
  | long c a rest => exact ⟨c, rfl, (ctrlAccepts_eq_isSome t c).trans hcontrol⟩

/-- R156: any byte but the checksum, after the payload of a well-formed frame, is a mismatch. -/
theorem parse_of_wrong_checksum {cs : Byte} (hwf : f.wellFormed t = true) (hf : f ≠ .singleCharacter)
    (hne : cs ≠ checksum f.payload) (after : List Byte) :
    parse t (headerOf f ++ f.payload ++ cs :: after) = .err .checksumMismatch (headerOf f ++ f.payload).length := by
  obtain ⟨c, hc, haccepts⟩ := payload_begins_with_accepted hwf hf
  obtain ⟨hpos, -⟩ := List.getElem?_eq_some_iff.mp hc
  rw [List.append_assoc, List.length_append, parse_eq_err_iff]
  refine .checksum (cs := cs) (opensPayload_headerOf hwf hf _) ⟨⟨c, ?_, haccepts⟩, ?_⟩ ?_ ?_
  · simp [hpos, ← hc]
  · simp
  · simp
  · simpa using hne

/-- R166 (2): flipping a bit changes the checksum byte. -/
theorem parse_of_flipped_checksum {front : List Byte} {cs : Byte} (hwf : f.wellFormed t = true)
    (hbytes : f.bytes = front ++ [cs, 0x16#8]) (i : Fin 8) :
    parse t (front ++ [cs ^^^ (1#8 <<< i.val), 0x16#8]) = .err .checksumMismatch front.length := by
  have hf : f ≠ .singleCharacter := by
    rintro rfl
    have := congrArg List.length hbytes
    simp [Frame.bytes] at this
  have hbit : ∀ i : Fin 8, 1#8 <<< i.val ≠ 0#8 := by decide
  rw [bytes_eq_headerOf_payload hf] at hbytes
  obtain ⟨rfl, hend⟩ := List.append_inj' hbytes rfl
  obtain ⟨rfl, -⟩ := List.cons.inj hend
  refine parse_of_wrong_checksum hwf hf (fun heq => hbit i ?_) _
  simpa using heq

/-- R166 (3): a verdict on a cut frame would be the whole frame's, which uses up more bytes than are left. -/
theorem parse_take_bytes {n : Nat} (hwf : f.wellFormed t = true) (hn : n < f.bytes.length) :
    ∃ need, parse t (f.bytes.take n) = .incomplete need := by
  have hwhole : parse t f.bytes = .ok f.bytes.length (telegramOf t f) := by
    simpa using parse_bytes hwf []
  obtain ⟨hok_kept, herr_kept, -, -⟩ := parsePrefixProperty t (f.bytes.take n) (f.bytes.drop n)
  rw [List.take_append_drop] at hok_kept herr_kept
  cases hresult : parse t (f.bytes.take n) with
  | incomplete need => exact ⟨need, rfl⟩
  | err e d => exact absurd (hwhole.symm.trans (herr_kept e d hresult)) nofun
  | ok k tel =>
    obtain ⟨rfl, -⟩ := ParseResult.ok.inj (hwhole.symm.trans (hok_kept k tel hresult))
    have hle := le_length_of_parse_ok hresult
    rw [List.length_take] at hle
    omega

end Laws

/-- Settles O45: the round trip of every format, the checksum of R156, R165 against the round trip, and
the header's echo check. -/
theorem sourceLawsHold : Obligations.SourceLawsHold := by
  intro t
  refine ⟨fun f x hwf => parse_bytes hwf x, fun f i front cs hwf hbytes _ => parse_of_flipped_checksum hwf hbytes i,
    fun f n hwf hn => parse_take_bytes hwf hn, fun l echo x hne => ?_⟩
  rw [parse_cons_longStart, longHeader_of_echo_ne hne.symm]

end Sys2Proof.Machine
end

section
/-! PROOFS of the family 44_stream_fsm.md: the priority of the inputs, the transition of each FSM state, the moves of an
attempt and the invariant of the registers, the simulation relation between the registers and the bytes of the attempt,
and from it that the machine reports what `Parse` returns (R200) and the events of a stream (R201). -/
namespace Sys2Proof.Machine

/-! ## The four inputs of a step -/

section Inputs
variable {s : State} {p : Ports} {rest : List Ports} {b : Byte}

/-- R180: a machine that has been reset takes the front entry off the queue and reacts to what it says. -/
theorem step_of_cons (hw : s.wasReset = true) (hin : s.inputs = p :: rest) :
    step s = .next ({ s with inputs := rest }.commit (fsmStep s.controlTable s.regs p.select)) := by
  rw [step_of_wasReset hw, State.fetch_of_cons s hin]

theorem step_of_presents (hp : Presents s b rest) :
    step s = .next ({ s with inputs := rest }.commit (acceptRegs s.controlTable b s.regs)) :=
  step_of_cons hp.1 hp.2

theorem exec_of_wasReset (i : Instr) (hw : s.wasReset = true) :
    exec i s = .next (s.commit (acceptRegs s.controlTable (encode s.controlTable i) s.regs)) := by
  rw [exec_eq_acceptByte, acceptByte_of_wasReset hw]

theorem Ports.select_of_rst (hrst : p.rst = true) : p.select = .reset := if_pos hrst

theorem Ports.select_of_abort (hrst : p.rst = false) (habort : p.abort = true) : p.select = .abort := by
  simp [Ports.select, hrst, habort]

theorem Ports.select_of_inValid (hrst : p.rst = false) (habort : p.abort = false) (hvalid : p.inValid = true) :
    p.select = .byte p.inByte := by
  simp [Ports.select, hrst, habort, hvalid]

theorem Ports.select_of_pause (hrst : p.rst = false) (habort : p.abort = false) (hvalid : p.inValid = false) :
    p.select = .noInput := by
  simp [Ports.select, hrst, habort, hvalid]

/-- R41 in `IDLE`: nothing is left to end. -/
theorem Regs.endAttempt_of_idle {r : Regs} (hst : r.st = .idle) (hpos : r.pos = 0) : r.endAttempt = r := by
  simp only [Regs.endAttempt, ← hst, ← hpos]

end Inputs

/-- Settles O4: the step is the FSM's step on the selected input, and `Ports.select` goes by priority. -/
theorem stepTakesOneInputByPriority : Obligations.StepTakesOneInputByPriority := by
  intro s p rest hw hin
  refine ⟨_, step_of_cons hw hin, rfl, hw, rfl, fun hrst => ?_, fun hrst habort => ?_,
    fun hrst habort hvalid => ?_, fun hrst habort hvalid => ?_⟩
  · rw [Ports.select_of_rst hrst]; exact ⟨rfl, rfl⟩
  · rw [Ports.select_of_abort hrst habort]; exact ⟨rfl, rfl⟩
  · rw [Ports.select_of_inValid hrst habort hvalid]; rfl
  · rw [Ports.select_of_pause hrst habort hvalid]; exact ⟨rfl, rfl⟩

/-- Settles O5: the selected input is the abort, whose reaction is the end of the attempt. -/
theorem abortKeepsTheOtherRegisters : Obligations.AbortKeepsTheOtherRegisters := by
  intro s p rest hw hin hrst habort
  have hstep : step s = .next { s with regs := s.regs.endAttempt, ev := none, inputs := rest } := by
    rw [step_of_cons hw hin, Ports.select_of_abort hrst habort]; rfl
  refine ⟨hstep, fun hst hpos => ?_⟩
  rw [hstep, Regs.endAttempt_of_idle hst hpos]

/-- A host that only pauses, now and later. -/
def State.Paused (s : State) : Prop :=
  ∀ p ∈ s.inputs, p.rst = false ∧ p.abort = false ∧ p.inValid = false

/-- R195: a step of a paused host writes no register, and the host stays paused. -/
theorem step_of_paused {s : State} (hw : s.wasReset = true) (hpaused : s.Paused) :
    step s = .next s.fetch.2.doNothing ∧ s.fetch.2.doNothing.Paused := by
  have hfetch : s.fetch.1 = .noInput := by
    cases hin : s.inputs with
    | nil => rw [State.fetch_of_nil s hin]
    | cons p rest =>
      obtain ⟨hrst, habort, hvalid⟩ := hpaused p (by simp [hin])
      rw [State.fetch_of_cons s hin, Ports.select_of_pause hrst habort hvalid]
  constructor
  · rw [step_of_noInput hfetch, State.onceReset_of_wasReset (by rw [State.fetch_wasReset, hw])]
  · intro p hp
    rw [State.doNothing_inputs, State.fetch_inputs] at hp
    exact hpaused p (List.mem_of_mem_tail hp)

theorem run_of_paused (n : Nat) {s : State} (hw : s.wasReset = true) (hpaused : s.Paused) :
    ∃ s', core.run n s = .next s' ∧ s'.regs = s.regs ∧ (0 < n → s'.ev = none) := by
  induction n generalizing s with
  | zero => exact ⟨s, rfl, rfl, nofun⟩
  | succ n ih =>
    obtain ⟨hstep, hpaused'⟩ := step_of_paused hw hpaused
    obtain ⟨s', hrun, hregs, hev⟩ := ih (by rw [State.doNothing_wasReset, State.fetch_wasReset, hw]) hpaused'
    rw [State.doNothing_regs, State.fetch_regs] at hregs
    refine ⟨s', run_succ_eq_next_iff.mpr ⟨_, hstep, hrun⟩, hregs, fun _ => ?_⟩
    obtain rfl | hn := Nat.eq_zero_or_pos n
    · cases hrun; rfl
    · exact hev hn

/-- Settles O6: every step of the run is one without input. -/
theorem withoutInputNothingChanges : Obligations.WithoutInputNothingChanges := by
  intro s n hw hpaused
  obtain ⟨s', hrun, hregs, hev⟩ := run_of_paused n hw hpaused
  refine ⟨s', hrun, hregs, hev, fun hst => ?_⟩
  rw [Regs.busy_eq_decide, hregs, decide_eq_true hst]

/-! ## The transition of each FSM state -/

/-- Settles O13: a code is its byte, accepted. -/
theorem codeIsAcceptedInEveryState : Obligations.CodeIsAcceptedInEveryState :=
  fun i _ hw => exec_of_wasReset i hw

/-- Settles O14: the first branch of the dispatch in `IDLE`. -/
theorem singleCharacterCompletesInIdle : Obligations.SingleCharacterCompletesInIdle := by
  intro s hw hst
  rw [exec_of_wasReset _ hw, acceptRegs_idle _ _ _ hst]
  rfl

/-- Settles O15: the second and third branches of the dispatch in `IDLE`. -/
theorem startCodesOpenFrames : Obligations.StartCodesOpenFrames := by
  intro s hw hst
  rw [exec_of_wasReset _ hw, exec_of_wasReset _ hw, acceptRegs_idle _ _ _ hst, acceptRegs_idle _ _ _ hst]
  have hneed : (5 - 1 : Count) = 4 := by decide
  exact ⟨⟨_, rfl, rfl, rfl, hneed⟩, ⟨_, rfl, rfl, rfl⟩⟩

section Transitions
variable {t : ControlTable} {b : Byte} {r : Regs}

/-- R184. -/
theorem acceptIdle_of_no_start (hsingle : b ≠ 0xE5#8) (hshort : b ≠ 0x10#8) (hlong : b ≠ 0x68#8) :
    acceptIdle b r = raise .invalidStartCharacter 1 r := by
  rw [acceptIdle, if_neg hsingle, if_neg hshort, if_neg hlong]

/-- R188: a rejected control byte. -/
theorem acceptPlCtrl_of_rejected (h : ctrlAccepts t b = false) :
    acceptPlCtrl t b r = raise .invalidFormat r.eventCount r :=
  if_neg (by simp [h])

/-- R184: in `IDLE`, every byte of a run of other bytes is an error event of its own. -/
theorem fsmRun_no_starts {bs : List Byte} (hst : r.st = .idle)
    (hbs : ∀ b ∈ bs, b ≠ 0xE5#8 ∧ b ≠ 0x10#8 ∧ b ≠ 0x68#8) :
    (fsmRun t r (bs.map Input.byte)).2 = List.replicate bs.length (some (.err .invalidStartCharacter 1)) := by
  induction bs generalizing r with
  | nil => rfl
  | cons b bs ih =>
    obtain ⟨⟨hsingle, hshort, hlong⟩, hrest⟩ := List.forall_mem_cons.mp hbs
    have hnow : fsmStep t r (.byte b) = raise .invalidStartCharacter 1 r :=
      (acceptRegs_idle t b r hst).trans (acceptIdle_of_no_start hsingle hshort hlong)
    simp only [List.map_cons, fsmRun, hnow, raise_fst, raise_snd, List.length_cons, List.replicate_succ,
      ih r.endAttempt_st hrest]

end Transitions

/-- Settles O16: the last branch of the dispatch in `IDLE`, once and along a run. -/
theorem otherBytesInIdleAreErrors : Obligations.OtherBytesInIdleAreErrors := by
  refine ⟨fun s b rest hp hst hsingle hshort hlong => ?_, fun t r bs hst hbs => fsmRun_no_starts hst hbs⟩
  rw [step_of_presents hp, acceptRegs_idle _ _ _ hst, acceptIdle_of_no_start hsingle hshort hlong]
  rfl

/-- Settles O17: the transition of `HDR_LEN1`; `b + 6` is at most 261, so `tot` does not wrap. -/
theorem firstLengthByteSetsTheTotal : Obligations.FirstLengthByteSetsTheTotal := by
  intro s b rest hp hst
  rw [step_of_presents hp, acceptRegs_hdrLen1 _ _ _ hst]
  refine ⟨_, rfl, rfl, ?_, fun hb => ?_⟩
  · change (b.setWidth 9 + 6 : Count).toNat = b.toNat + 6
    bv_omega
  · exact decide_eq_false (not_le.mpr hb)

/-- Settles O18: the two branches of `HDR_LEN2`. -/
theorem lengthEchoIsChecked : Obligations.LengthEchoIsChecked := by
  intro s b rest hp hst
  rw [step_of_presents hp, acceptRegs_hdrLen2 _ _ _ hst]
  refine ⟨fun hb => ?_, fun hb => ?_⟩
  · rw [acceptHdrLen2, if_pos hb]; rfl
  · rw [acceptHdrLen2, if_neg hb]; rfl

/-- Settles O19: the three branches of `HDR_START2`. -/
theorem secondStartIsCheckedBeforeLength : Obligations.SecondStartIsCheckedBeforeLength := by
  intro s b rest hp hst
  rw [step_of_presents hp, acceptRegs_hdrStart2 _ _ _ hst]
  refine ⟨fun hb hL => ?_, fun hb => ?_, fun hb hL => ?_⟩
  · rw [acceptHdrStart2, if_neg (not_not_intro hb), if_neg (not_lt.mpr hL)]; rfl
  · rw [acceptHdrStart2, if_pos hb]; rfl
  · rw [acceptHdrStart2, if_neg (not_not_intro hb), if_pos hL]; rfl

/-- Settles O20: the two branches of `PL_CTRL`; there the invariant has `rem` = `len` >= 2. -/
theorem controlByteIsCapturedOrRejected : Obligations.ControlByteIsCapturedOrRejected := by
  intro s b rest hp hst
  rw [step_of_presents hp, acceptRegs_plCtrl _ _ _ hst]
  refine ⟨fun hb => ?_, fun hb => ?_, fun ⟨_, hregs⟩ => ?_⟩
  · rw [acceptPlCtrl_of_accepts hb]; rfl
  · rw [acceptPlCtrl_of_rejected hb]; rfl
  · have hinv := hregs hp.1
    simp only [Regs.Inv, hst] at hinv
    obtain ⟨⟨hlen, -⟩, hrem, -⟩ := hinv
    rw [hrem]
    exact ⟨hlen, by bv_omega⟩

/-- Settles O22: the transition of `PL_ADDR`. -/
theorem addressByteIsTaken : Obligations.AddressByteIsTaken := by
  intro s b rest hp hst
  rw [step_of_presents hp, acceptRegs_plAddr _ _ _ hst]
  rfl

/-- Settles O23: the transition of `PL_CI`. -/
theorem informationByteIsTaken : Obligations.InformationByteIsTaken := by
  intro s b rest hp hst
  rw [step_of_presents hp, acceptRegs_plCi _ _ _ hst]
  rfl

/-- Settles O24: the transition of `PL_UD`. -/
theorem userDataByteIsTaken : Obligations.UserDataByteIsTaken := by
  intro s b rest hp hst
  rw [step_of_presents hp, acceptRegs_plUd _ _ _ hst]
  rfl

/-- Settles O25: the two branches of `PL_CS`. -/
theorem checksumByteIsCompared : Obligations.ChecksumByteIsCompared := by
  intro s b rest hp hst
  rw [step_of_presents hp, acceptRegs_plCs _ _ _ hst]
  refine ⟨fun hb => ?_, fun hb => ?_⟩
  · rw [acceptPlCs, if_pos hb]; rfl
  · rw [acceptPlCs, if_neg hb]; rfl

/-- Settles O26: the two branches of `PL_STOP`, and the telegram of R196 by its length. -/
theorem stopByteEndsTheFrame : Obligations.StopByteEndsTheFrame := by
  intro s hw hst
  refine ⟨⟨s.regs.telegram s.controlTable, ?_, Regs.telegram_of_len_two _, Regs.telegram_of_len_three _,
    Regs.telegram_of_len_other _⟩, fun b rest hin hb => ?_⟩
  · rw [exec_of_wasReset _ hw, acceptRegs_plStop _ _ _ hst]; rfl
  · rw [step_of_presents ⟨hw, hin⟩, acceptRegs_plStop _ _ _ hst, acceptPlStop, if_neg hb]; rfl

/-! ## The moves of an attempt -/

/-- The transitions without an event, each with the byte that takes it (R182, R183, R185 to R192). -/
inductive Move (t : ControlTable) (b : Byte) (r : Regs) : Regs → Prop
  | shortStart (hst : r.st = .idle) (hb : b = 0x10#8) :
      Move t b r ({ r with len := 2, tot := 5, totK := true }.enterPayload 2 1)
  | longStart (hst : r.st = .idle) (hb : b = 0x68#8) : Move t b r { r with st := .hdrLen1, pos := 1, totK := false }
  | length (hst : r.st = .hdrLen1) :
      Move t b r
        { r with st := .hdrLen2, pos := 2, len := b, tot := b.setWidth 9 + 6, totK := decide (2 ≤ b.toNat) }
  | echo (hst : r.st = .hdrLen2) (hb : b = r.len) : Move t b r { r with st := .hdrStart2, pos := 3 }
  | secondStart (hst : r.st = .hdrStart2) (hb : b = 0x68#8) (hL : 2 ≤ r.len.toNat) :
      Move t b r (r.enterPayload r.len 4)
  | control (hst : r.st = .plCtrl) (hb : ctrlAccepts t b = true) :
      Move t b r { r.takePayload b with ctl := b, st := .plAddr }
  | address (hst : r.st = .plAddr) :
      Move t b r { r.takePayload b with adr := b, st := r.afterPayload .plCi }
  | information (hst : r.st = .plCi) :
      Move t b r { r.takePayload b with ci := b, ciV := true, st := r.afterPayload .plUd }
  | userData (hst : r.st = .plUd) : Move t b r { r.takePayload b with st := r.afterPayload .plUd }
  | checksum (hst : r.st = .plCs) (hb : b = r.sum) : Move t b r { r with st := .plStop, pos := r.pos + 1 }

/-- The states that a payload and its checksum pass through (R188 to R192). -/
def Regs.BeforeStop (r : Regs) : Prop :=
  r.st = .plCtrl ∨ r.st = .plAddr ∨ r.st = .plCi ∨ r.st = .plUd ∨ r.st = .plCs

section Moves
variable {t : ControlTable} {b : Byte} {r r' : Regs}

/-- An accepted byte that gives no event makes a move. -/
theorem move_of_acceptRegs (h : acceptRegs t b r = (r', none)) : Move t b r r' := by
  cases hst : r.st with
  | idle =>
    rw [acceptRegs_idle t b r hst, acceptIdle] at h
    split_ifs at h with hsingle hshort hlong <;> cases h
    · exact .shortStart hst hshort
    · exact .longStart hst hlong
  | hdrLen1 => rw [acceptRegs_hdrLen1 t b r hst] at h; cases h; exact .length hst
  | hdrLen2 =>
    rw [acceptRegs_hdrLen2 t b r hst, acceptHdrLen2] at h
    split_ifs at h with hb <;> cases h
    exact .echo hst hb
  | hdrStart2 =>
    rw [acceptRegs_hdrStart2 t b r hst, acceptHdrStart2] at h
    split_ifs at h with hb hL <;> cases h
    exact .secondStart hst (not_not.mp hb) (not_lt.mp hL)
  | plCtrl =>
    rw [acceptRegs_plCtrl t b r hst, acceptPlCtrl] at h
    split_ifs at h with hb <;> cases h
    exact .control hst hb
  | plAddr => rw [acceptRegs_plAddr t b r hst] at h; cases h; exact .address hst
  | plCi => rw [acceptRegs_plCi t b r hst] at h; cases h; exact .information hst
  | plUd => rw [acceptRegs_plUd t b r hst] at h; cases h; exact .userData hst
  | plCs =>
    rw [acceptRegs_plCs t b r hst, acceptPlCs] at h
    split_ifs at h with hb <;> cases h
    exact .checksum hst hb
  | plStop =>
    rw [acceptRegs_plStop t b r hst, acceptPlStop] at h
    split_ifs at h <;> cases h

/-- Accepting a byte ends the attempt with an event, or makes a move. -/
theorem acceptRegs_event_or_move (t : ControlTable) (b : Byte) (r : Regs) :
    (∃ e, acceptRegs t b r = (r.endAttempt, some e)) ∨ ∃ r', acceptRegs t b r = (r', none) ∧ Move t b r r' := by
  obtain hquiet | ⟨hregs, e, hevent⟩ := acceptRegs_cases t b r
  · have h : acceptRegs t b r = ((acceptRegs t b r).1, none) := Prod.ext rfl hquiet
    exact .inr ⟨_, h, move_of_acceptRegs h⟩
  · exact .inl ⟨e, Prod.ext hregs hevent⟩

theorem Regs.afterPayload_of_last (more : FsmState) (hrem : r.rem.toNat = 1) : r.afterPayload more = .plCs := by
  rw [Regs.afterPayload_eq, if_pos (BitVec.eq_of_toNat_eq hrem)]

theorem Regs.afterPayload_of_more (more : FsmState) (hrem : 2 ≤ r.rem.toNat) : r.afterPayload more = more := by
  rw [Regs.afterPayload_eq, if_neg (by bv_omega)]

theorem Move.st_ne_idle (hmove : Move t b r r') : r'.st ≠ .idle := by
  cases hmove with
  | address | information | userData =>
    simp only [Regs.afterPayload_eq]
    split_ifs <;> decide
  | shortStart | longStart | length | echo | secondStart | control | checksum => nofun

/-! ## The invariant -/

/-- R28: `rem` counts one payload byte down. -/
theorem Regs.rem_sub_one_add_one (hrem : 1 ≤ r.rem.toNat) : (r.rem - 1).toNat + 1 = r.rem.toNat := by
  bv_omega

theorem Regs.rem_sub_one_of_last (hrem : r.rem.toNat = 1) : r.rem - 1 = 0 := by
  bv_omega

theorem Regs.lengthsAgree.two_le {left : Nat} (h : r.lengthsAgree left) : 2 ≤ r.len.toNat := h.1

theorem Regs.lengthsAgree.totK_eq {left : Nat} (h : r.lengthsAgree left) : r.totK = true := h.2.1

/-- One payload byte keeps the lengths in agreement (R198 (b)). -/
theorem Regs.lengthsAgree.takePayload (h : r.lengthsAgree 2) (hrem : 1 ≤ r.rem.toNat) :
    (r.takePayload b).lengthsAgree 2 := by
  have hpos := h.pos_le (by decide)
  have hdown := Regs.rem_sub_one_add_one hrem
  obtain ⟨hlen, htotK, htot, hform⟩ := h
  refine ⟨hlen, htotK, ?_, hform⟩
  rw [Regs.takePayload_tot, Regs.takePayload_pos, Regs.takePayload_rem]
  bv_omega

/-- The checksum byte keeps the lengths in agreement: only the stop character is left. -/
theorem Regs.lengthsAgree.takeChecksum (h : r.lengthsAgree 2) :
    { r with st := .plStop, pos := r.pos + 1 : Regs }.lengthsAgree 1 := by
  have hpos := h.pos_le (by decide)
  obtain ⟨hlen, htotK, htot, hform⟩ := h
  refine ⟨hlen, htotK, ?_, hform⟩
  change r.tot.toNat = (r.pos + 1).toNat + r.rem.toNat + 1
  bv_omega

/-- R198: a move keeps the invariant. -/
theorem Move.inv (hmove : Move t b r r') (hinv : r.Inv t) : r'.Inv t := by
  cases hmove with
  | shortStart => simp [Regs.Inv, Regs.lengthsAgree]
  | longStart => exact ⟨rfl, rfl⟩
  | length =>
    have htot : (b.setWidth 9 + 6 : Count).toNat = b.toNat + 6 := by bv_omega
    exact ⟨rfl, htot, rfl⟩
  | echo hst =>
    simp only [Regs.Inv, hst] at hinv
    obtain ⟨-, htot, htotK⟩ := hinv
    exact ⟨rfl, htot, htotK⟩
  | secondStart hst _ hL =>
    simp only [Regs.Inv, hst] at hinv
    obtain ⟨-, htot, htotK⟩ := hinv
    have hwhole : r.tot.toNat = 4 + r.len.toNat + 2 := by omega
    exact ⟨⟨hL, htotK.trans (decide_eq_true hL), hwhole, .inl htot⟩, rfl, rfl, rfl⟩
  | control hst hb =>
    simp only [Regs.Inv, hst] at hinv
    obtain ⟨hagree, hrem, hsum, hciV⟩ := hinv
    have hone : 1 ≤ r.rem.toNat := by rw [hrem]; exact le_of_lt hagree.two_le
    have hsum' : r.sum + b = b := by rw [hsum]; exact BitVec.zero_add b
    exact ⟨hagree.takePayload (b := b) hone, hrem ▸ Regs.rem_sub_one_add_one hone, hsum', hciV, hb⟩
  | address hst =>
    simp only [Regs.Inv, hst] at hinv
    obtain ⟨hagree, hrem, hsum, hciV, hctl⟩ := hinv
    have hlen : 2 ≤ r.len.toNat := hagree.two_le
    have hagree' := hagree.takePayload (b := b) (by omega)
    have hdown := Regs.rem_sub_one_add_one (r := r) (by omega)
    obtain hlast | hmore : r.rem.toNat = 1 ∨ 2 ≤ r.rem.toNat := by omega
    · rw [Regs.afterPayload_of_last _ hlast]
      have hciV' : r.ciV = decide (3 ≤ r.len.toNat) := by rw [hciV, decide_eq_false (by omega)]
      exact ⟨hagree', Regs.rem_sub_one_of_last hlast, hciV', hctl⟩
    · rw [Regs.afterPayload_of_more _ hmore]
      have hrem' : (r.rem - 1).toNat + 2 = r.len.toNat := by omega
      have hone' : 1 ≤ (r.rem - 1).toNat := by omega
      exact ⟨hagree', hrem', hone', congrArg (· + b) hsum, hciV, hctl⟩
  | information hst =>
    simp only [Regs.Inv, hst] at hinv
    obtain ⟨hagree, hrem, hone, -, -, hctl⟩ := hinv
    have hagree' := hagree.takePayload (b := b) hone
    have hdown := Regs.rem_sub_one_add_one hone
    obtain hlast | hmore : r.rem.toNat = 1 ∨ 2 ≤ r.rem.toNat := by omega
    · rw [Regs.afterPayload_of_last _ hlast]
      have hciV' : true = decide (3 ≤ r.len.toNat) := by rw [decide_eq_true (by omega)]
      exact ⟨hagree', Regs.rem_sub_one_of_last hlast, hciV', hctl⟩
    · rw [Regs.afterPayload_of_more _ hmore]
      have hrem' : (r.rem - 1).toNat + 3 ≤ r.len.toNat := by omega
      have hone' : 1 ≤ (r.rem - 1).toNat := by omega
      exact ⟨hagree', hrem', hone', rfl, hctl⟩
  | userData hst =>
    simp only [Regs.Inv, hst] at hinv
    obtain ⟨hagree, hrem, hone, hciV, hctl⟩ := hinv
    have hagree' := hagree.takePayload (b := b) hone
    have hdown := Regs.rem_sub_one_add_one hone
    obtain hlast | hmore : r.rem.toNat = 1 ∨ 2 ≤ r.rem.toNat := by omega
    · rw [Regs.afterPayload_of_last _ hlast]
      have hciV' : r.ciV = decide (3 ≤ r.len.toNat) := by rw [hciV, decide_eq_true (by omega)]
      exact ⟨hagree', Regs.rem_sub_one_of_last hlast, hciV', hctl⟩
    · rw [Regs.afterPayload_of_more _ hmore]
      have hrem' : (r.rem - 1).toNat + 3 ≤ r.len.toNat := by omega
      have hone' : 1 ≤ (r.rem - 1).toNat := by omega
      exact ⟨hagree', hrem', hone', hciV, hctl⟩
  | checksum hst =>
    simp only [Regs.Inv, hst] at hinv
    obtain ⟨hagree, hrem, hciV, hctl⟩ := hinv
    exact ⟨hagree.takeChecksum, hrem, hciV, hctl⟩

/-- The end of an attempt meets the invariant, whatever the other registers hold. -/
theorem Regs.endAttempt_inv : r.endAttempt.Inv t := rfl

theorem Regs.reset_inv : Regs.reset.Inv t := rfl

theorem acceptRegs_inv (hinv : r.Inv t) : (acceptRegs t b r).1.Inv t := by
  obtain ⟨e, h⟩ | ⟨r', h, hmove⟩ := acceptRegs_event_or_move t b r
  · rw [h]; exact Regs.endAttempt_inv
  · rw [h]; exact hmove.inv hinv

/-- R198 for every input of R180. -/
theorem fsmStep_inv (i : Input) (hinv : r.Inv t) : (fsmStep t r i).1.Inv t := by
  cases i with
  | reset => exact Regs.reset_inv
  | abort => exact Regs.endAttempt_inv
  | byte b => exact acceptRegs_inv hinv
  | noInput => exact hinv

/-- R25 along an attempt: the numbers that the header rules write for `pos` are one more than before. -/
theorem Move.pos_eq (hmove : Move t b r r') (hinv : r.Inv t) : r'.pos = r.pos + 1 := by
  cases hmove with
  | shortStart hst | longStart hst =>
    have hpos : r.pos = 0 := by simpa only [Regs.Inv, hst] using hinv
    rw [hpos]; rfl
  | length hst | echo hst | secondStart hst =>
    simp only [Regs.Inv, hst] at hinv
    obtain ⟨hpos, -⟩ := hinv
    rw [hpos]; rfl
  | control | address | information | userData | checksum => rfl

/-- R35: what the status reports as missing, by the lengths. -/
theorem Regs.lengthsAgree.need_toNat {left : Nat} (h : r.lengthsAgree left) : r.need.toNat = r.rem.toNat + left := by
  obtain ⟨-, -, htot, -⟩ := h
  rw [Regs.need]
  bv_omega

/-- The payload states hold every length but the stop character's. -/
theorem Regs.Inv.lengthsAgree (hinv : r.Inv t) (hst : r.BeforeStop) : r.lengthsAgree 2 := by
  rcases hst with hst | hst | hst | hst | hst <;>
    (simp only [Regs.Inv, hst] at hinv; obtain ⟨hagree, -⟩ := hinv; exact hagree)

theorem Regs.lengthsAgree.pos_pos {left : Nat} (h : r.lengthsAgree left) (hleft : left ≤ 2)
    (hrem : r.rem.toNat ≤ r.len.toNat) : 1 ≤ r.pos.toNat := by
  obtain ⟨-, -, htot, hlong | ⟨hshort, hlen⟩⟩ := h
  · omega
  · have : r.len.toNat = 2 := congrArg BitVec.toNat hlen
    omega

/-- An attempt in progress has accepted a byte (R23). -/
theorem Regs.Inv.pos_pos (hinv : r.Inv t) (hst : r.st ≠ .idle) : 1 ≤ r.pos.toNat := by
  cases h : r.st with simp only [Regs.Inv, h] at hinv
  | idle => exact absurd h hst
  | hdrLen1 | hdrLen2 | hdrStart2 =>
    obtain ⟨hpos, -⟩ := hinv
    rw [hpos]; decide
  | plCtrl =>
    obtain ⟨hagree, hrem, -⟩ := hinv
    exact hagree.pos_pos le_rfl (by rw [hrem])
  | plAddr | plCi | plUd =>
    obtain ⟨hagree, hrem, -⟩ := hinv
    exact hagree.pos_pos le_rfl (by omega)
  | plCs | plStop =>
    obtain ⟨hagree, hrem, -⟩ := hinv
    exact hagree.pos_pos (by decide) (by rw [hrem]; exact Nat.zero_le _)

end Moves

/-- Settles O38: in `IDLE` the invariant is `pos` = 0, and the default table is lawful. -/
theorem resetMeetsTheInvariant : Obligations.ResetMeetsTheInvariant :=
  ⟨⟨defaultControlTable_lawful, fun _ => Regs.reset_inv⟩,
    fun _ => ⟨Regs.reset_inv, fun ht => ⟨ht, fun _ => Regs.reset_inv⟩⟩⟩

/-- Settles O37: a step is a reset, or the FSM's step in a machine that has been reset; no step changes the table. -/
theorem stepKeepsTheInvariant : Obligations.StepKeepsTheInvariant := by
  rintro s s' ⟨ht, hregs⟩ hstep
  refine ⟨(step_controlTable hstep).symm ▸ ht, fun _ => ?_⟩
  rw [step_controlTable hstep]
  cases hw : s.wasReset with
  | true =>
    rw [step_of_wasReset hw] at hstep
    cases hstep
    exact fsmStep_inv _ (hregs hw)
  | false =>
    obtain ⟨-, rfl⟩ | ⟨hw', -⟩ := step_cases hstep
    · exact Regs.reset_inv
    · exact absurd hw' (by simp [hw])

/-- Settles O39: `pos_le`, and the clauses of the invariant in each state. -/
theorem invariantBoundsTheLengths : Obligations.InvariantBoundsTheLengths := by
  intro t r hinv
  refine ⟨hinv.pos_le, fun hst => ?payload, fun hst => ?stop, fun hst => ?rem, fun hst hL => ?ciV⟩
  case payload =>
    have hagree := hinv.lengthsAgree hst
    exact ⟨hagree.two_le, hagree.totK_eq, hagree.need_toNat⟩
  case stop =>
    simp only [Regs.Inv, hst] at hinv
    obtain ⟨hagree, hrem, -⟩ := hinv
    have hneed := hagree.need_toNat
    rw [hrem] at hneed
    exact hneed
  case rem =>
    rcases hst with hst | hst <;>
      (simp only [Regs.Inv, hst] at hinv; obtain ⟨-, hrem, -⟩ := hinv; exact hrem)
  case ciV =>
    simp only [Regs.Inv, hst] at hinv
    obtain ⟨-, -, hciV, -⟩ := hinv
    rw [hciV, decide_eq_true hL]

/-- Settles O41: the byte ends the attempt with an event, or makes a move. -/
theorem oneAttemptAtATime : Obligations.OneAttemptAtATime := by
  rintro s s' b rest hp ⟨-, hregs⟩ hst hstep
  have hinv := hregs hp.1
  rw [step_of_presents hp] at hstep
  cases hstep
  obtain ⟨e, h⟩ | ⟨r', h, hmove⟩ := acceptRegs_event_or_move s.controlTable b s.regs
  · rw [h]
    exact .inl ⟨nofun, rfl, rfl⟩
  · have hpos := hmove.pos_eq hinv
    have hfirst := hinv.pos_pos hst
    have hbound := hinv.pos_le
    rw [h]
    exact .inr ⟨rfl, hmove.st_ne_idle, hpos, by rw [State.commit_regs, hpos]; bv_omega⟩

/-! ## The registers against the bytes of the attempt -/

theorem checksum_append_singleton (bs : List Byte) (b : Byte) : checksum (bs ++ [b]) = checksum bs + b := by
  simp [checksum, List.foldl_append]

/-- The bytes before a payload of `len` bytes (R72, R73). -/
def Announces (header : List Byte) (len : Byte) : Prop :=
  (header = [0x10#8] ∧ len = 2) ∨ (header = [0x68#8, len, len, 0x68#8] ∧ 2 ≤ len.toNat)

/-- The registers hold what matters of the payload bytes accepted so far: how many are left (R28), their sum (R29) and
the bytes of the three fields (R30 to R32). -/
structure Regs.Captured (r : Regs) (bytes : List Byte) : Prop where
  length : bytes.length + r.rem.toNat = r.len.toNat
  sum : r.sum = checksum bytes
  fields : bytes.take 3 = [r.ctl, r.adr, r.ci].take bytes.length

/-- The attempt is a header, and the payload bytes that the registers hold. -/
def Regs.InPayload (r : Regs) (attempt : List Byte) : Prop :=
  ∃ header bytes, Announces header r.len ∧ attempt = header ++ bytes ∧ r.Captured bytes

/-- The bytes of the attempt, as far as the FSM state and the registers determine them. -/
def Regs.Spells (r : Regs) (attempt : List Byte) : Prop :=
  match r.st with
  | .idle => attempt = []
  | .hdrLen1 => attempt = [0x68#8]
  | .hdrLen2 => attempt = [0x68#8, r.len]
  | .hdrStart2 => attempt = [0x68#8, r.len, r.len]
  | .plCtrl | .plAddr | .plCi | .plUd | .plCs => r.InPayload attempt
  | .plStop => ∃ front, attempt = front ++ [r.sum] ∧ r.InPayload front

/-- The simulation relation of R200: registers that meet the invariant, and the bytes of the attempt they stand for. -/
structure Regs.Tracks (t : ControlTable) (r : Regs) (attempt : List Byte) : Prop where
  inv : r.Inv t
  pos : r.pos.toNat = attempt.length
  spells : r.Spells attempt

section Tracking
variable {t : ControlTable} {b : Byte} {r r' : Regs} {attempt header bytes : List Byte}

theorem Regs.tracks_nil (hst : r.st = .idle) (hpos : r.pos = 0) : r.Tracks t [] where
  inv := by simp only [Regs.Inv, hst, hpos]
  pos := by rw [hpos]; rfl
  spells := by simp only [Regs.Spells, hst]

theorem Regs.Captured.eq_nil (h : r.Captured bytes) (hrem : r.rem = r.len) : bytes = [] := by
  have hlength := h.length
  rw [hrem] at hlength
  exact List.eq_nil_of_length_eq_zero (by omega)

theorem Regs.captured_nil (hrem : r.rem = r.len) (hsum : r.sum = 0) : r.Captured [] where
  length := by rw [hrem]; exact Nat.zero_add _
  sum := hsum
  fields := rfl

/-- One more payload byte, in the field it belongs to. -/
theorem Regs.Captured.snoc (h : r.Captured bytes) (hone : 1 ≤ r.rem.toNat) (hlen : r'.len = r.len)
    (hrem : r'.rem = r.rem - 1) (hsum : r'.sum = r.sum + b)
    (hfields : (bytes ++ [b]).take 3 = [r'.ctl, r'.adr, r'.ci].take (bytes.length + 1)) :
    r'.Captured (bytes ++ [b]) where
  length := by
    have hdown := Regs.rem_sub_one_add_one hone
    have hlength := h.length
    rw [hlen, hrem, List.length_append, List.length_singleton]
    omega
  sum := by rw [hsum, h.sum, checksum_append_singleton]
  fields := by rw [hfields, List.length_append, List.length_singleton]

/-- The fields of a payload that has its first two bytes. -/
theorem Regs.Captured.eq_cons_cons (h : r.Captured bytes) (htwo : 2 ≤ bytes.length) :
    ∃ rest, bytes = r.ctl :: r.adr :: rest ∧ (rest = [] ∨ ∃ ud, rest = r.ci :: ud) := by
  have hfields := h.fields
  match bytes with
  | [c, a] =>
    obtain ⟨rfl, rfl⟩ : c = r.ctl ∧ a = r.adr := by simpa using hfields
    exact ⟨[], rfl, .inl rfl⟩
  | c :: a :: ci :: ud =>
    obtain ⟨rfl, rfl, rfl⟩ : c = r.ctl ∧ a = r.adr ∧ ci = r.ci := by simpa using hfields
    exact ⟨r.ci :: ud, rfl, .inr ⟨ud, rfl⟩⟩

theorem Regs.Captured.head?_eq (h : r.Captured bytes) (hone : 1 ≤ bytes.length) : bytes.head? = some r.ctl := by
  have hfields := h.fields
  cases bytes with
  | nil => cases hone
  | cons c rest =>
    simp only [List.take_succ_cons, List.length_cons, List.cons.injEq] at hfields
    rw [List.head?_cons, hfields.1]

/-- After a payload byte the FSM is still within the payload, or at its checksum. -/
theorem Regs.InPayload.spells {more : FsmState} (h : r'.InPayload attempt) (hst : r'.st = r.afterPayload more)
    (hmore : more = .plCi ∨ more = .plUd) : r'.Spells attempt := by
  rw [Regs.afterPayload_eq] at hst
  split_ifs at hst
  · simpa only [Regs.Spells, hst] using h
  · rcases hmore with rfl | rfl <;> simpa only [Regs.Spells, hst] using h

/-- A move spells one byte more. -/
theorem Move.spells (hmove : Move t b r r') (hinv : r.Inv t) (hspells : r.Spells attempt) :
    r'.Spells (attempt ++ [b]) := by
  cases hmove with
  | shortStart hst hb =>
    simp only [Regs.Spells, hst] at hspells
    subst hspells hb
    exact ⟨[0x10#8], [], .inl ⟨rfl, rfl⟩, rfl, Regs.captured_nil rfl rfl⟩
  | longStart hst hb =>
    simp only [Regs.Spells, hst] at hspells
    subst hspells hb
    rfl
  | length hst =>
    simp only [Regs.Spells, hst] at hspells
    subst hspells
    rfl
  | echo hst hb =>
    simp only [Regs.Spells, hst] at hspells
    subst hspells hb
    rfl
  | secondStart hst hb hL =>
    simp only [Regs.Spells, hst] at hspells
    subst hspells hb
    exact ⟨_, [], .inr ⟨rfl, hL⟩, (List.append_nil _).symm, Regs.captured_nil rfl rfl⟩
  | control hst hb =>
    simp only [Regs.Spells, Regs.Inv, hst] at hspells hinv
    obtain ⟨header, bytes, hheader, rfl, hcaptured⟩ := hspells
    obtain ⟨⟨hlen, -⟩, hrem, -⟩ := hinv
    obtain rfl := hcaptured.eq_nil hrem
    have hone : 1 ≤ r.rem.toNat := by rw [hrem]; exact le_of_lt hlen
    exact ⟨header, [b], hheader, by simp, hcaptured.snoc hone rfl rfl rfl rfl⟩
  | address hst =>
    simp only [Regs.Spells, Regs.Inv, hst] at hspells hinv
    obtain ⟨header, bytes, hheader, rfl, hcaptured⟩ := hspells
    obtain ⟨⟨hlen, -⟩, hrem, -⟩ := hinv
    have hlength := hcaptured.length
    have hone : bytes.length = 1 := by omega
    have hctl := hcaptured.head?_eq hone.ge
    obtain ⟨c, rfl⟩ := List.length_eq_one_iff.mp hone
    obtain rfl : c = r.ctl := Option.some.inj hctl
    exact Regs.InPayload.spells ⟨header, _, hheader, List.append_assoc _ _ _,
      hcaptured.snoc (by omega) rfl rfl rfl rfl⟩ rfl (.inl rfl)
  | information hst =>
    simp only [Regs.Spells, Regs.Inv, hst] at hspells hinv
    obtain ⟨header, bytes, hheader, rfl, hcaptured⟩ := hspells
    obtain ⟨-, hrem, hone, -⟩ := hinv
    have hlength := hcaptured.length
    obtain ⟨rest, rfl, rfl | ⟨ud, rfl⟩⟩ := hcaptured.eq_cons_cons (by omega)
    · exact Regs.InPayload.spells ⟨header, _, hheader, List.append_assoc _ _ _,
        hcaptured.snoc hone rfl rfl rfl rfl⟩ rfl (.inr rfl)
    · simp only [List.length_cons] at hlength
      omega
  | userData hst =>
    simp only [Regs.Spells, Regs.Inv, hst] at hspells hinv
    obtain ⟨header, bytes, hheader, rfl, hcaptured⟩ := hspells
    obtain ⟨-, hrem, hone, -⟩ := hinv
    have hlength := hcaptured.length
    have hthree : 3 ≤ bytes.length := by omega
    have hfields : (bytes ++ [b]).take 3 = [r.ctl, r.adr, r.ci].take (bytes.length + 1) := by
      rw [List.take_append_of_le_length hthree, hcaptured.fields, List.take_of_length_le hthree,
        List.take_of_length_le (Nat.le_succ_of_le hthree)]
    exact Regs.InPayload.spells ⟨header, _, hheader, List.append_assoc _ _ _,
      hcaptured.snoc hone rfl rfl rfl hfields⟩ rfl (.inr rfl)
  | checksum hst hb =>
    simp only [Regs.Spells, hst] at hspells
    obtain ⟨header, bytes, hheader, rfl, hlength, hsum, hfields⟩ := hspells
    exact ⟨_, hb ▸ rfl, header, bytes, hheader, rfl, hlength, hsum, hfields⟩

/-- A move tracks one byte more. -/
theorem Regs.Tracks.move (htracks : r.Tracks t attempt) (hmove : Move t b r r') : r'.Tracks t (attempt ++ [b]) where
  inv := hmove.inv htracks.inv
  pos := by
    have hbound := htracks.inv.pos_le
    have hpos := htracks.pos
    rw [hmove.pos_eq htracks.inv, List.length_append, List.length_singleton]
    bv_omega
  spells := hmove.spells htracks.inv htracks.spells

theorem quietly_cons_of_quiet {bs : List Byte} (h : acceptRegs t b r = (r', none)) :
    quietly t r (b :: bs) = quietly t r' bs := by
  rw [quietly, h]

/-- A quiet run is a byte without an event, and then a quiet run. -/
theorem quietly_cons_eq_some_iff {bs : List Byte} :
    quietly t r (b :: bs) = some r' ↔ ∃ next, acceptRegs t b r = (next, none) ∧ quietly t next bs = some r' := by
  obtain ⟨e, h⟩ | ⟨next, h, -⟩ := acceptRegs_event_or_move t b r
  · simp [quietly, h]
  · simp [quietly_cons_of_quiet h, h]

theorem Regs.Tracks.of_quietly {bs : List Byte} (htracks : r.Tracks t attempt) (hquiet : quietly t r bs = some r') :
    r'.Tracks t (attempt ++ bs) := by
  induction bs generalizing r attempt with
  | nil =>
    cases hquiet
    rwa [List.append_nil]
  | cons b bs ih =>
    obtain ⟨next, hnow, hquiet⟩ := quietly_cons_eq_some_iff.mp hquiet
    rw [List.append_cons]
    exact ih (htracks.move (move_of_acceptRegs hnow)) hquiet

/-! ## The registers along an attempt -/

/-- R75: what is summed begins after the header. -/
theorem Announces.payloadSoFar_eq {len : Byte} (h : Announces header len) (bytes : List Byte) :
    payloadSoFar (header ++ bytes) = bytes := by
  obtain ⟨rfl, -⟩ | ⟨rfl, -⟩ := h <;> rfl

theorem Regs.Spells.inPayload (hspells : r.Spells attempt) (hst : r.BeforeStop) : r.InPayload attempt := by
  rcases hst with hst | hst | hst | hst | hst <;> simpa only [Regs.Spells, hst] using hspells

/-- R198 (e) in the reading of log 10: `ci_v` says whether the third payload byte has been accepted. -/
theorem Regs.Captured.ciV_iff (h : r.Captured bytes) (hinv : r.Inv t) (hst : r.BeforeStop) :
    r.ciV = true ↔ 3 ≤ bytes.length := by
  have hlength := h.length
  rcases hst with hst | hst | hst | hst | hst <;> simp only [Regs.Inv, hst] at hinv
  · obtain ⟨-, hrem, -, hciV⟩ := hinv
    simp [h.eq_nil hrem, hciV]
  · obtain ⟨-, hrem, -, hciV, -⟩ := hinv
    simp only [hciV, Bool.false_eq_true, false_iff]
    omega
  · obtain ⟨-, hrem, -, -, hciV, -⟩ := hinv
    simp only [hciV, Bool.false_eq_true, false_iff]
    omega
  · obtain ⟨-, hrem, -, hciV, -⟩ := hinv
    simp only [hciV, true_iff]
    omega
  · obtain ⟨-, hrem, hciV, -⟩ := hinv
    rw [hrem] at hlength
    rw [hciV, decide_eq_true_iff, ← hlength]
    rfl

theorem Regs.Captured.length_of_last (h : r.Captured bytes) (hrem : r.rem = 0) : bytes.length = r.len.toNat := by
  have hlength := h.length
  rw [hrem] at hlength
  exact hlength

end Tracking

/-- Settles O40: a quiet run from `IDLE` tracks its bytes, and in each state they are what the clause says. -/
theorem attemptRegistersSummariseItsBytes : Obligations.AttemptRegistersSummariseItsBytes := by
  intro t r r' attempt hst hpos hquiet
  obtain ⟨hinv, hcount, hspells⟩ := (Regs.tracks_nil (t := t) hst hpos).of_quietly hquiet
  rw [List.nil_append] at hcount hspells
  refine ⟨hcount, fun hst => ?payload, fun hst => ?checksum, fun hst => ?stop⟩
  case payload =>
    obtain ⟨header, bytes, hheader, rfl, hcaptured⟩ := hspells.inPayload hst
    rw [hheader.payloadSoFar_eq]
    exact ⟨hcaptured.sum, hcaptured.ciV_iff hinv hst⟩
  case checksum =>
    simp only [Regs.Spells, Regs.Inv, hst] at hspells hinv
    obtain ⟨header, bytes, hheader, rfl, hcaptured⟩ := hspells
    obtain ⟨-, hrem, -⟩ := hinv
    rw [hheader.payloadSoFar_eq]
    exact hcaptured.length_of_last hrem
  case stop =>
    simp only [Regs.Spells, Regs.Inv, hst] at hspells hinv
    obtain ⟨front, rfl, header, bytes, hheader, rfl, hcaptured⟩ := hspells
    obtain ⟨-, hrem, -⟩ := hinv
    rw [List.append_assoc, hheader.payloadSoFar_eq, ← hcaptured.length_of_last hrem, List.take_left]
    exact ⟨hcaptured.sum, List.getLast?_concat⟩

/-! ## `Parse` on the bytes that the registers track -/

/-- The event that reports a verdict, and the number of bytes it takes (R200 (a), (b)). -/
def ParseResult.verdict? : ParseResult → Option (Nat × Event)
  | .ok k tel => some (k, .ok tel (BitVec.ofNat 9 k))
  | .err e d => some (d + 1, .err e (BitVec.ofNat 9 (d + 1)))
  | .incomplete _ => none

section Verdicts
variable {result : ParseResult}

theorem ParseResult.eq_ok_iff {k : Nat} {tel : Telegram} :
    result = .ok k tel ↔ result.verdict? = some (k, .ok tel (BitVec.ofNat 9 k)) := by
  cases result <;> simp +contextual [ParseResult.verdict?]

theorem ParseResult.eq_err_iff {e : ErrorKind} {d : Nat} :
    result = .err e d ↔ result.verdict? = some (d + 1, .err e (BitVec.ofNat 9 (d + 1))) := by
  cases result <;> simp +contextual [ParseResult.verdict?, and_comm]

theorem ParseResult.eq_incomplete_iff : (∃ need, result = .incomplete need) ↔ result.verdict? = none := by
  cases result <;> simp [ParseResult.verdict?]

/-- R165: what the first bytes decide, the whole input decides. -/
theorem parse_append_of_verdict {t : ControlTable} {inp : List Byte} {v : Nat × Event} (after : List Byte)
    (h : (parse t inp).verdict? = some v) : parse t (inp ++ after) = parse t inp := by
  obtain ⟨hok, herr, -, -⟩ := parsePrefixProperty t inp after
  cases hresult : parse t inp with
  | ok k tel => exact hok k tel hresult
  | err e d => exact herr e d hresult
  | incomplete need => simp [hresult, ParseResult.verdict?] at h

end Verdicts

section WholePayload
variable {t : ControlTable} {inp : List Byte} {h L : Nat}

/-- R158: a payload that passes, without its checksum. -/
theorem payload_of_no_checksum (hL : 2 ≤ L) (hpasses : PayloadPasses t inp h L) (hend : inp[h + L]? = none) :
    payload t inp h L = needMore inp h L := by
  obtain ⟨sum, tel, hpayload, hsum⟩ := payload_of_passes hL hpasses
  simp only [hpayload, payloadTail, hsum, hend]

/-- R158: a payload that passes, with its checksum and without the stop character. -/
theorem payload_of_no_stop (hL : 2 ≤ L) (hpasses : PayloadPasses t inp h L)
    (hcs : inp[h + L]? = some (checksum ((inp.drop h).take L))) (hend : inp[h + L + 1]? = none) :
    payload t inp h L = needMore inp h L := by
  obtain ⟨sum, tel, hpayload, hsum⟩ := payload_of_passes hL hpasses
  simp only [hpayload, payloadTail, hsum, hcs, hend, ne_eq, not_true, if_false]

end WholePayload

section Simulation
variable {t : ControlTable} {b : Byte} {r : Regs} {attempt header bytes after : List Byte}

theorem Announces.opensPayload {len : Byte} (hheader : Announces header len) (bytes : List Byte) :
    OpensPayload (header ++ bytes) header.length len.toNat := by
  obtain ⟨rfl, rfl⟩ | ⟨rfl, hlen⟩ := hheader
  · exact .inl ⟨rfl, rfl, rfl⟩
  · exact .inr ⟨len, rfl, hlen, rfl, rfl⟩

/-- The control byte of the attempt is the one captured. -/
theorem Regs.Captured.control_byte (hcaptured : r.Captured bytes) (hone : 1 ≤ bytes.length) :
    (header ++ (bytes ++ after))[header.length]? = some r.ctl := by
  rw [List.getElem?_append_right le_rfl, Nat.sub_self, ← List.head?_eq_getElem?,
    List.head?_append_of_ne_nil _ (List.ne_nil_of_length_pos hone), hcaptured.head?_eq hone]

/-- The payload is whole, and its control byte was accepted. -/
theorem Regs.Captured.passes (hcaptured : r.Captured bytes) (hrem : r.rem = 0) (hlen : 2 ≤ r.len.toNat)
    (hctl : ctrlAccepts t r.ctl = true) :
    PayloadPasses t (header ++ (bytes ++ after)) header.length r.len.toNat := by
  have hlength := hcaptured.length_of_last hrem
  exact ⟨⟨r.ctl, hcaptured.control_byte (by omega), hctl⟩, by simp; omega⟩

theorem Regs.Captured.checksum_byte (hcaptured : r.Captured bytes) (hrem : r.rem = 0) (cs : Byte) :
    (header ++ (bytes ++ cs :: after))[header.length + r.len.toNat]? = some cs := by
  simp [← hcaptured.length_of_last hrem]

theorem Regs.Captured.stop_byte (hcaptured : r.Captured bytes) (hrem : r.rem = 0) (cs stop : Byte) :
    (header ++ (bytes ++ cs :: stop :: after))[header.length + r.len.toNat + 1]? = some stop := by
  simp [← hcaptured.length_of_last hrem, Nat.add_assoc]

/-- The sum that `Parse` compares the checksum with is the one in the register. -/
theorem Regs.Captured.checksum_eq (hcaptured : r.Captured bytes) (hrem : r.rem = 0) :
    checksum (((header ++ (bytes ++ after)).drop header.length).take r.len.toNat) = r.sum := by
  rw [List.drop_left, ← hcaptured.length_of_last hrem, List.take_left, hcaptured.sum]

theorem Regs.shortfall_of_known (hst : r.st ≠ .idle) (htotK : r.totK = true) :
    r.shortfall = .known r.need.toNat := by
  simp [Regs.shortfall, Regs.needK, hst, htotK]

theorem Regs.shortfall_of_idle (hst : r.st = .idle) : r.shortfall = .unknown := by
  simp [Regs.shortfall, Regs.needK, hst]

theorem Regs.shortfall_of_unknown (htotK : r.totK = false) : r.shortfall = .unknown := by
  simp [Regs.shortfall, Regs.needK, htotK]

/-- In the header after the first length byte, the status is the shortfall of R134. -/
theorem Regs.shortfall_eq_needLong (hst : r.st ≠ .idle) (htot : r.tot.toNat = r.len.toNat + 6)
    (htotK : r.totK = decide (2 ≤ r.len.toNat)) (hpos : r.pos.toNat ≤ 6) :
    r.shortfall = needLong r.len.toNat r.pos.toNat := by
  unfold needLong
  split_ifs with hlen
  · rw [Regs.shortfall_of_known hst (htotK.trans (decide_eq_true hlen)), Regs.need]
    congr 1
    bv_omega
  · exact Regs.shortfall_of_unknown (htotK.trans (decide_eq_false hlen))

/-- Within the payload and after it, the status is the shortfall of R158. -/
theorem Regs.needMore_eq {left : Nat} (hst : r.st ≠ .idle) (hagree : r.lengthsAgree left)
    (hlength : attempt.length + r.rem.toNat + left = header.length + r.len.toNat + 2) :
    needMore attempt header.length r.len.toNat = .incomplete r.shortfall := by
  rw [needMore, Regs.shortfall_of_known hst hagree.totK_eq, hagree.need_toNat]
  congr 2
  omega

/-- R158 after the control byte: `Parse` waits for the payload to be whole. -/
theorem Regs.Captured.parse_eq (hcaptured : r.Captured bytes) (hheader : Announces header r.len) (hst : r.st ≠ .idle)
    (hagree : r.lengthsAgree 2) (hctl : ctrlAccepts t r.ctl = true) (hbytes : 1 ≤ bytes.length)
    (hrem : 1 ≤ r.rem.toNat) : parse t (header ++ bytes) = .incomplete r.shortfall := by
  have hlength := hcaptured.length
  have hcontrol := hcaptured.control_byte (header := header) (after := []) hbytes
  rw [List.append_nil] at hcontrol
  rw [parse_of_opensPayload (hheader.opensPayload _),
    payload_of_unfinished hcontrol hctl (by rw [List.length_append]; omega)]
  exact Regs.needMore_eq hst hagree (by rw [List.length_append]; omega)

/-- R200 (c): while the registers track an attempt, `Parse` is Incomplete on it and the status is the shortfall. -/
theorem Regs.Tracks.parse_eq (htracks : r.Tracks t attempt) : parse t attempt = .incomplete r.shortfall := by
  obtain ⟨hinv, hpos, hspells⟩ := htracks
  cases hst : r.st with simp only [Regs.Inv, Regs.Spells, hst] at hinv hspells
  | idle =>
    subst hspells
    rw [Regs.shortfall_of_idle hst]
    rfl
  | hdrLen1 =>
    obtain ⟨-, htotK⟩ := hinv
    subst hspells
    rw [Regs.shortfall_of_unknown htotK]
    rfl
  | hdrLen2 =>
    obtain ⟨hpos, htot, htotK⟩ := hinv
    subst hspells
    rw [Regs.shortfall_eq_needLong (by simp [hst]) htot htotK (by simp [hpos]), hpos]
    rfl
  | hdrStart2 =>
    obtain ⟨hpos, htot, htotK⟩ := hinv
    subst hspells
    rw [Regs.shortfall_eq_needLong (by simp [hst]) htot htotK (by simp [hpos]), hpos]
    exact if_neg (not_not_intro rfl)
  | plCtrl =>
    obtain ⟨header, bytes, hheader, rfl, hcaptured⟩ := hspells
    obtain ⟨hagree, hrem, -⟩ := hinv
    have hlength := hcaptured.length
    obtain rfl := hcaptured.eq_nil hrem
    rw [parse_of_opensPayload (hheader.opensPayload _), payload_of_empty (by simp)]
    exact Regs.needMore_eq (by simp [hst]) hagree (by simp at hlength ⊢; omega)
  | plAddr =>
    obtain ⟨header, bytes, hheader, rfl, hcaptured⟩ := hspells
    obtain ⟨hagree, hrem, -, -, hctl⟩ := hinv
    have hlength := hcaptured.length
    have hlen := hagree.two_le
    exact hcaptured.parse_eq hheader (by simp [hst]) hagree hctl (by omega) (by omega)
  | plCi =>
    obtain ⟨header, bytes, hheader, rfl, hcaptured⟩ := hspells
    obtain ⟨hagree, hrem, hone, -, -, hctl⟩ := hinv
    have hlength := hcaptured.length
    exact hcaptured.parse_eq hheader (by simp [hst]) hagree hctl (by omega) hone
  | plUd =>
    obtain ⟨header, bytes, hheader, rfl, hcaptured⟩ := hspells
    obtain ⟨hagree, hrem, hone, -, hctl⟩ := hinv
    have hlength := hcaptured.length
    exact hcaptured.parse_eq hheader (by simp [hst]) hagree hctl (by omega) hone
  | plCs =>
    obtain ⟨header, bytes, hheader, rfl, hcaptured⟩ := hspells
    obtain ⟨hagree, hrem, -, hctl⟩ := hinv
    have hlength := hcaptured.length
    have hlast := hcaptured.length_of_last hrem
    have hpasses := hcaptured.passes (header := header) (after := []) hrem hagree.two_le hctl
    rw [List.append_nil] at hpasses
    rw [parse_of_opensPayload (hheader.opensPayload _), payload_of_no_checksum hagree.two_le hpasses (by simp [hlast])]
    exact Regs.needMore_eq (by simp [hst]) hagree (by simp; omega)
  | plStop =>
    obtain ⟨front, rfl, header, bytes, hheader, rfl, hcaptured⟩ := hspells
    obtain ⟨hagree, hrem, -, hctl⟩ := hinv
    have hlength := hcaptured.length
    have hlast := hcaptured.length_of_last hrem
    have hpasses := hcaptured.passes (header := header) (after := [r.sum]) hrem hagree.two_le hctl
    rw [List.append_assoc, parse_of_opensPayload (hheader.opensPayload _),
      payload_of_no_stop hagree.two_le hpasses (by rw [hcaptured.checksum_byte hrem, hcaptured.checksum_eq hrem])
        (by simp [← hlast, Nat.add_assoc])]
    exact Regs.needMore_eq (by simp [hst]) hagree (by simp; omega)

/-- R25: `pos + 1` counts the tracked bytes and the deciding one. -/
theorem Regs.eventCount_eq (hpos : r.pos.toNat = attempt.length) :
    r.eventCount = BitVec.ofNat 9 (attempt.length + 1) := by
  rw [Regs.eventCount, ← hpos, BitVec.ofNat_add, BitVec.ofNat_toNat, BitVec.setWidth_eq]
  rfl

/-- R200 (b): an error decided by the byte after the tracked ones. -/
theorem verdict?_of_err {e : ErrorKind} {inp : List Byte} (hpos : r.pos.toNat = attempt.length)
    (hparse : parse t inp = .err e attempt.length) :
    (parse t inp).verdict? = some (attempt.length + 1, .err e r.eventCount) := by
  rw [hparse, ParseResult.verdict?, Regs.eventCount_eq hpos]

/-- R200 (a): a telegram decided by the byte after the tracked ones. -/
theorem verdict?_of_ok {tel : Telegram} {inp : List Byte} (hpos : r.pos.toNat = attempt.length)
    (hparse : parse t inp = .ok (attempt.length + 1) tel) :
    (parse t inp).verdict? = some (attempt.length + 1, .ok tel r.eventCount) := by
  rw [hparse, ParseResult.verdict?, Regs.eventCount_eq hpos]

/-- R196 against R160: the telegram formed from the registers is the one that `Classify` forms from the bytes. -/
theorem Regs.classify_eq_telegram {rest : List Byte} {control : Control} (hheader : Announces header r.len)
    (hlength : rest.length + 2 = r.len.toNat) (hrest : rest = [] ∨ ∃ ud, rest = r.ci :: ud)
    (hctrl : ctrl t r.ctl = .ok control) :
    classify control (addr r.adr) rest.head? (rest.length + 2) header.length = r.telegram t := by
  obtain rfl := controlOf_of_ctrl_ok t r.ctl hctrl
  obtain rfl | ⟨ud, rfl⟩ := hrest
  · have hlen : r.len = 2 := BitVec.eq_of_toNat_eq hlength.symm
    rw [Regs.telegram_of_len_two t hlen]
    rfl
  · rw [List.length_cons] at hlength ⊢
    have hlong : header.length = 4 := by
      obtain ⟨-, hlen⟩ | ⟨rfl, -⟩ := hheader
      · rw [hlen] at hlength
        exact absurd hlength (by simp)
      · rfl
    rw [hlong, List.head?_cons, classify]
    split_ifs with hthree
    · have hlen : r.len = 3 := BitVec.eq_of_toNat_eq (hlength.symm.trans hthree)
      rw [Regs.telegram_of_len_three t hlen]
    · have hud : BitVec.ofNat 8 (ud.length + 1 + 2 - 3) = r.len - 3 := by bv_omega
      rw [Regs.telegram_of_len_other t (by bv_omega) (by bv_omega), hud]
      rfl

/-- A whole payload with its checksum and the stop character is accepted, with the telegram of the registers. -/
theorem Regs.Captured.payload_eq (hcaptured : r.Captured bytes) (hheader : Announces header r.len) (hrem : r.rem = 0)
    (hlen : 2 ≤ r.len.toNat) (hctl : ctrlAccepts t r.ctl = true) :
    payload t (header ++ (bytes ++ [r.sum, 0x16#8])) header.length r.len.toNat =
      .ok (header.length + r.len.toNat + 2) (r.telegram t) := by
  obtain ⟨control, hctrl⟩ := ctrl_ok_of_ctrlAccepts hctl
  have hlength := hcaptured.length_of_last hrem
  obtain ⟨rest, rfl, hrest⟩ := hcaptured.eq_cons_cons (by omega)
  have hwhole : rest.length + 2 = r.len.toNat := hlength
  have hdrop : (header ++ (r.ctl :: r.adr :: rest ++ [r.sum, 0x16#8])).drop header.length =
      r.ctl :: r.adr :: rest ++ [checksum (r.ctl :: r.adr :: rest), 0x16#8] ++ [] := by
    rw [List.drop_left, List.append_nil, hcaptured.sum]
  rw [← hwhole, payload_eq_ok hdrop hctrl, Regs.classify_eq_telegram hheader hwhole hrest hctrl]

/-- R200 (a), (b): the byte that gives an event is the one that decides `Parse`, and the event reports the verdict. -/
theorem Regs.Tracks.verdict?_eq {e : Event} {r' : Regs} (htracks : r.Tracks t attempt)
    (hevent : acceptRegs t b r = (r', some e)) :
    (parse t (attempt ++ [b])).verdict? = some (attempt.length + 1, e) := by
  obtain ⟨hinv, hpos, hspells⟩ := htracks
  cases hst : r.st with simp only [Regs.Inv, Regs.Spells, hst] at hinv hspells
  | idle =>
    rw [acceptRegs_idle t b r hst, acceptIdle] at hevent
    subst hspells
    split_ifs at hevent with hsingle hshort hlong <;> cases hevent
    · rw [hsingle]; rfl
    · rw [List.nil_append, parse_cons_of_no_start hsingle hshort hlong]; rfl
  | hdrLen1 => rw [acceptRegs_hdrLen1 t b r hst] at hevent; cases hevent
  | hdrLen2 =>
    rw [acceptRegs_hdrLen2 t b r hst, acceptHdrLen2] at hevent
    subst hspells
    split_ifs at hevent with hb <;> cases hevent
    have hparse : parse t ([0x68#8, r.len] ++ [b]) = .err .invalidStartCharacter 2 :=
      longHeader_of_echo_ne (t := t) (rest := []) hb
    rw [hparse]; rfl
  | hdrStart2 =>
    rw [acceptRegs_hdrStart2 t b r hst, acceptHdrStart2] at hevent
    subst hspells
    split_ifs at hevent with hb hlen <;> cases hevent
    · have hparse : parse t ([0x68#8, r.len, r.len] ++ [b]) = .err .invalidStartCharacter 3 :=
        longHeader_of_start_ne hb
      rw [hparse]; rfl
    · have hparse : parse t ([0x68#8, r.len, r.len] ++ [b]) = .err .invalidFormat 3 := by
        rw [not_not.mp hb]; exact longHeader_of_length_lt_two hlen
      rw [hparse]; rfl
  | plCtrl =>
    rw [acceptRegs_plCtrl t b r hst, acceptPlCtrl] at hevent
    split_ifs at hevent with hb <;> cases hevent
    obtain ⟨header, bytes, hheader, rfl, hcaptured⟩ := hspells
    obtain ⟨hagree, hrem, -⟩ := hinv
    obtain rfl := hcaptured.eq_nil hrem
    refine verdict?_of_err hpos ?_
    rw [List.append_nil, parse_of_opensPayload (hheader.opensPayload _)]
    exact payload_of_rejected (c := b) (by simp) (by simpa using hb)
  | plAddr => rw [acceptRegs_plAddr t b r hst] at hevent; cases hevent
  | plCi => rw [acceptRegs_plCi t b r hst] at hevent; cases hevent
  | plUd => rw [acceptRegs_plUd t b r hst] at hevent; cases hevent
  | plCs =>
    rw [acceptRegs_plCs t b r hst, acceptPlCs] at hevent
    split_ifs at hevent with hb <;> cases hevent
    obtain ⟨header, bytes, hheader, rfl, hcaptured⟩ := hspells
    obtain ⟨hagree, hrem, -, hctl⟩ := hinv
    refine verdict?_of_err hpos ?_
    rw [List.append_assoc, parse_of_opensPayload (hheader.opensPayload _), List.length_append,
      hcaptured.length_of_last hrem]
    exact payload_of_checksum_ne hagree.two_le (hcaptured.passes hrem hagree.two_le hctl)
      (hcaptured.checksum_byte hrem b) (by rwa [hcaptured.checksum_eq hrem])
  | plStop =>
    rw [acceptRegs_plStop t b r hst, acceptPlStop] at hevent
    obtain ⟨front, rfl, header, bytes, hheader, rfl, hcaptured⟩ := hspells
    obtain ⟨hagree, hrem, -, hctl⟩ := hinv
    have hlength := hcaptured.length_of_last hrem
    have hopens := hheader.opensPayload (bytes ++ [r.sum, b])
    have hattempt : header ++ bytes ++ [r.sum] ++ [b] = header ++ (bytes ++ [r.sum, b]) := by simp
    split_ifs at hevent with hb <;> cases hevent
    · refine verdict?_of_ok hpos ?_
      rw [hattempt, parse_of_opensPayload hopens, hb, hcaptured.payload_eq hheader hrem hagree.two_le hctl]
      simp [hlength]
      omega
    · refine verdict?_of_err hpos ?_
      have hcs := hcaptured.checksum_byte (header := header) (after := [b]) hrem r.sum
      have hstop := hcaptured.stop_byte (header := header) (after := []) hrem r.sum b
      rw [hattempt, parse_of_opensPayload hopens, List.length_append, List.length_append, hlength]
      exact payload_of_stop_ne hagree.two_le (hcaptured.passes hrem hagree.two_le hctl)
        (hcs.trans (congrArg some (hcaptured.checksum_eq hrem).symm)) hstop hb

end Simulation

/-! ## One attempt, from `IDLE` to its event or to the end of the input -/

section Attempts
variable {t : ControlTable} {r : Regs} {bs : List Byte}

/-- A run that is not quiet has a first event, at a byte that ends the attempt. -/
theorem exists_event_of_not_quietly (h : quietly t r bs = none) :
    ∃ front b after next e, bs = front ++ b :: after ∧ quietly t r front = some next ∧
      acceptRegs t b next = (next.endAttempt, some e) := by
  induction bs generalizing r with
  | nil => cases h
  | cons b bs ih =>
    obtain ⟨e, hevent⟩ | ⟨r', hquiet, -⟩ := acceptRegs_event_or_move t b r
    · exact ⟨[], b, bs, r, e, rfl, rfl, hevent⟩
    · rw [quietly_cons_of_quiet hquiet] at h
      obtain ⟨front, x, after, next, e, rfl, hfront, hevent⟩ := ih h
      exact ⟨b :: front, x, after, next, e, rfl, (quietly_cons_of_quiet hquiet).trans hfront, hevent⟩

/-- R200: from `IDLE`, either no byte of the input gives an event, and `Parse` is Incomplete with the shortfall of the
registers, or the first event is the verdict of `Parse`, at the byte that decides it. -/
theorem attempt_cases (hst : r.st = .idle) (hpos : r.pos = 0) (inp : List Byte) :
    (∃ last, quietly t r inp = some last ∧ parse t inp = .incomplete last.shortfall) ∨
      ∃ front b after last e, inp = front ++ b :: after ∧ quietly t r front = some last ∧
        acceptRegs t b last = (last.endAttempt, some e) ∧ (parse t inp).verdict? = some (front.length + 1, e) := by
  have hstart := Regs.tracks_nil (t := t) hst hpos
  cases hquiet : quietly t r inp with
  | some last => exact .inl ⟨last, rfl, (hstart.of_quietly hquiet).parse_eq⟩
  | none =>
    obtain ⟨front, b, after, last, e, rfl, hfront, hevent⟩ := exists_event_of_not_quietly hquiet
    have hverdict := (hstart.of_quietly hfront).verdict?_eq hevent
    rw [List.nil_append] at hverdict
    refine .inr ⟨front, b, after, last, e, rfl, hfront, hevent, ?_⟩
    rw [List.append_cons, parse_append_of_verdict after hverdict]
    exact hverdict

end Attempts

/-! ## The machine -/

section FirstEvents
variable {s s' : State} {n : Nat}

theorem firstEvent_of_event {e : Event} (hstep : step s = .next s') (hev : s'.ev = some e) :
    firstEvent (n + 1) s = some (1, e) := by
  simp only [firstEvent, hstep, hev]

theorem firstEvent_of_quiet (hstep : step s = .next s') (hev : s'.ev = none) :
    firstEvent (n + 1) s = (firstEvent n s').map (fun x => (x.1 + 1, x.2)) := by
  simp only [firstEvent, hstep, hev]

/-- The machine on bytes that give no event: it runs to the registers of `quietly`, and its first event comes after
them. -/
theorem run_of_quietly {r : Regs} {bs : List Byte} {later : List Ports} (hw : s.wasReset = true)
    (hin : s.inputs = bs.map Ports.present ++ later) (hquiet : quietly s.controlTable s.regs bs = some r) :
    ∃ s' : State, core.run bs.length s = .next s' ∧ s'.regs = r ∧ s'.inputs = later ∧ s'.wasReset = true ∧
      s'.controlTable = s.controlTable ∧
      ∀ n, firstEvent (n + bs.length) s = (firstEvent n s').map (fun x => (x.1 + bs.length, x.2)) := by
  induction bs generalizing s with
  | nil =>
    cases hquiet
    exact ⟨s, rfl, rfl, hin, hw, rfl, fun n => by simp⟩
  | cons b bs ih =>
    rw [List.map_cons, List.cons_append] at hin
    have hstep := step_of_presents ⟨hw, hin⟩
    obtain ⟨next, hnow, hquiet⟩ := quietly_cons_eq_some_iff.mp hquiet
    rw [hnow] at hstep
    obtain ⟨s', hrun, hregs, hinputs, hw', htable, hfirst⟩ :=
      ih (s := State.commit { s with inputs := bs.map Ports.present ++ later } (next, none)) hw rfl hquiet
    refine ⟨s', run_succ_eq_next_iff.mpr ⟨_, hstep, hrun⟩, hregs, hinputs, hw', htable, fun n => ?_⟩
    rw [List.length_cons, ← Nat.add_assoc, firstEvent_of_quiet hstep rfl, hfirst n, Option.map_map]
    rfl

/-- R200: the first event of the machine is the verdict of `Parse`. -/
theorem firstEvent_eq_verdict? {inp : List Byte} {later : List Ports} (hw : s.wasReset = true)
    (hst : s.regs.st = .idle) (hpos : s.regs.pos = 0) (hin : s.inputs = inp.map Ports.present ++ later) :
    firstEvent inp.length s = (parse s.controlTable inp).verdict? := by
  obtain ⟨last, hquiet, hparse⟩ | ⟨front, b, after, last, e, rfl, hfront, hevent, hverdict⟩ :=
    attempt_cases hst hpos inp
  · obtain ⟨s', -, -, -, -, -, hfirst⟩ := run_of_quietly hw hin hquiet
    have hnone := hfirst 0
    rw [Nat.zero_add] at hnone
    rw [hnone, hparse]
    rfl
  · rw [List.map_append, List.append_assoc] at hin
    obtain ⟨s', -, rfl, hinputs, hw', htable, hfirst⟩ := run_of_quietly hw hin hfront
    have hstep := step_of_presents ⟨hw', hinputs⟩
    rw [htable, hevent] at hstep
    have hlength : (front ++ b :: after).length = after.length + 1 + front.length := by simp; omega
    rw [hlength, hfirst, firstEvent_of_event hstep rfl, hverdict, Nat.add_comm]
    rfl

end FirstEvents

/-- Settles O48: the first event is the verdict, read back for each kind of result; without a verdict the run is quiet
and ends at the shortfall. -/
theorem machineRealisesParse : Obligations.MachineRealisesParse := by
  intro s inp later hw hst hpos hin
  rw [firstEvent_eq_verdict? hw hst hpos hin]
  refine ⟨fun _ _ => ParseResult.eq_ok_iff, fun _ _ => ParseResult.eq_err_iff, ParseResult.eq_incomplete_iff,
    fun need hneed => ?_⟩
  obtain ⟨last, hquiet, hparse⟩ | ⟨_, _, _, _, _, _, _, _, hverdict⟩ :=
    attempt_cases (t := s.controlTable) hst hpos inp
  · obtain ⟨s', hrun, rfl, -⟩ := run_of_quietly hw hin hquiet
    exact ⟨s', hrun, ParseResult.incomplete.inj (hparse.symm.trans hneed)⟩
  · rw [hneed] at hverdict
    cases hverdict

/-! ## Streams -/

section Streams
variable {t : ControlTable} {r : Regs}

theorem fsmRun_append_of_quietly {last : Regs} {bs : List Byte} (hquiet : quietly t r bs = some last)
    (more : List Input) :
    fsmRun t r (bs.map Input.byte ++ more) =
      ((fsmRun t last more).1, List.replicate bs.length none ++ (fsmRun t last more).2) := by
  induction bs generalizing r with
  | nil => cases hquiet; rfl
  | cons b bs ih =>
    obtain ⟨next, haccept, hquiet⟩ := quietly_cons_eq_some_iff.mp hquiet
    have hnow : fsmStep t r (.byte b) = (next, none) := haccept
    simp only [List.map_cons, List.cons_append, fsmRun, hnow, ih hquiet, List.length_cons, List.replicate_succ]

/-- R201: after a verdict, `Events` goes on with what the verdict left. -/
theorem eventsOf_of_verdict {stream : List Byte} {n : Nat} {e : Event} (fuel : Nat)
    (hverdict : (parse t stream).verdict? = some (n, e)) :
    eventsOf t (fuel + 1) stream =
      (e :: (eventsOf t fuel (stream.drop n)).1, (eventsOf t fuel (stream.drop n)).2) := by
  cases hparse : parse t stream with
  | ok k tel => rw [hparse] at hverdict; cases hverdict; simp only [eventsOf, hparse]
  | err kind d => rw [hparse] at hverdict; cases hverdict; simp only [eventsOf, hparse]
  | incomplete need => rw [hparse] at hverdict; cases hverdict

theorem eventsOf_of_incomplete {stream : List Byte} {need : Need} (fuel : Nat)
    (hparse : parse t stream = .incomplete need) : eventsOf t (fuel + 1) stream = ([], need) := by
  simp only [eventsOf, hparse]

/-- R201, with any fuel that is enough: each attempt gives the verdict of `Parse` on the rest of the stream, and the
next one starts in `IDLE` at the byte after it. -/
theorem fsmRun_stream {fuel : Nat} {stream : List Byte} (hst : r.st = .idle) (hpos : r.pos = 0)
    (hfuel : stream.length ≤ fuel) :
    (fsmRun t r (stream.map Input.byte)).2.filterMap id = (eventsOf t fuel stream).1 ∧
      (fsmRun t r (stream.map Input.byte)).1.shortfall = (eventsOf t fuel stream).2 := by
  induction fuel generalizing r stream with
  | zero =>
    obtain rfl := List.eq_nil_of_length_eq_zero (Nat.le_zero.mp hfuel)
    exact ⟨rfl, Regs.shortfall_of_idle hst⟩
  | succ fuel ih =>
    obtain ⟨last, hquiet, hparse⟩ | ⟨front, b, after, last, e, rfl, hfront, hevent, hverdict⟩ :=
      attempt_cases (t := t) hst hpos stream
    · have hrun := fsmRun_append_of_quietly hquiet []
      rw [List.append_nil] at hrun
      rw [hrun, eventsOf_of_incomplete fuel hparse]
      exact ⟨by simp [fsmRun], rfl⟩
    · have hrun := fsmRun_append_of_quietly hfront (.byte b :: after.map Input.byte)
      have hnow : fsmStep t last (.byte b) = (last.endAttempt, some e) := hevent
      have hdrop : (front ++ b :: after).drop (front.length + 1) = after := by simp
      obtain ⟨hevents, hshortfall⟩ := ih (r := last.endAttempt) (stream := after) rfl rfl
        (by simp at hfuel; omega)
      rw [List.map_append, List.map_cons, hrun, eventsOf_of_verdict fuel hverdict, hdrop, ← hevents, ← hshortfall]
      simp [fsmRun, hnow]

end Streams

/-- Settles O49: the length of the stream is fuel enough. -/
theorem streamEventsAreTheParsedFrames : Obligations.StreamEventsAreTheParsedFrames :=
  fun _ _ _ hst hpos => fsmRun_stream hst hpos le_rfl

end Sys2Proof.Machine
end

section
/-! PROOFS of the family 60_exceptions.md: the causes of each error kind, what an event writes, and the codes on
`ev_err`. -/
namespace Sys2Proof.Machine

/-! ## The causes of each error kind -/

section Causes
variable {t : ControlTable} {inp : List Byte} {d : Nat}

/-- R222: the start dispatch, the length echo and the second start. -/
theorem errorCause_invalidStartCharacter_iff :
    ErrorCause t inp .invalidStartCharacter d ↔
      (∃ b, inp[0]? = some b ∧ b ≠ 0xE5#8 ∧ b ≠ 0x10#8 ∧ b ≠ 0x68#8 ∧ d = 0) ∨
      (∃ l echo, inp.take 3 = [0x68#8, l, echo] ∧ echo ≠ l ∧ d = 2) ∨
      (∃ l start, inp.take 4 = [0x68#8, l, l, start] ∧ start ≠ 0x68#8 ∧ d = 3) := by
  constructor
  · intro hcause
    cases hcause with
    | noStart hb hsingle hshort hlong => exact .inl ⟨_, hb, hsingle, hshort, hlong, rfl⟩
    | echo hfront hne => exact .inr (.inl ⟨_, _, hfront, hne, rfl⟩)
    | secondStart hfront hne => exact .inr (.inr ⟨_, _, hfront, hne, rfl⟩)
  · rintro (⟨b, hb, hsingle, hshort, hlong, rfl⟩ | ⟨l, echo, hfront, hne, rfl⟩ | ⟨l, start, hfront, hne, rfl⟩)
    · exact .noStart hb hsingle hshort hlong
    · exact .echo hfront hne
    · exact .secondStart hfront hne

/-- R223: a rejected control byte, a length below 2, and a wrong stop character. -/
theorem errorCause_invalidFormat_iff :
    ErrorCause t inp .invalidFormat d ↔
      (∃ h L c, OpensPayload inp h L ∧ inp[h]? = some c ∧ ctrlAccepts t c = false ∧ d = h) ∨
      (∃ l, inp.take 4 = [0x68#8, l, l, 0x68#8] ∧ l.toNat < 2 ∧ d = 3) ∨
      (∃ h L stop, OpensPayload inp h L ∧ PayloadPasses t inp h L ∧
        inp[h + L]? = some (checksum ((inp.drop h).take L)) ∧ inp[h + L + 1]? = some stop ∧ stop ≠ 0x16#8 ∧
        d = h + L + 1) := by
  constructor
  · intro hcause
    cases hcause with
    | control hopens hc hrejects => exact .inl ⟨_, _, _, hopens, hc, hrejects, rfl⟩
    | length hfront hl => exact .inr (.inl ⟨_, hfront, hl, rfl⟩)
    | stop hopens hpasses hcs hstop hne => exact .inr (.inr ⟨_, _, _, hopens, hpasses, hcs, hstop, hne, rfl⟩)
  · rintro (⟨h, L, c, hopens, hc, hrejects, rfl⟩ | ⟨l, hfront, hl, rfl⟩ |
      ⟨h, L, stop, hopens, hpasses, hcs, hstop, hne, rfl⟩)
    · exact .control hopens hc hrejects
    · exact .length hfront hl
    · exact .stop hopens hpasses hcs hstop hne

/-- R224: a checksum byte that is not the sum of the payload. -/
theorem errorCause_checksumMismatch_iff :
    ErrorCause t inp .checksumMismatch d ↔
      ∃ h L cs, OpensPayload inp h L ∧ PayloadPasses t inp h L ∧ inp[h + L]? = some cs ∧
        cs ≠ checksum ((inp.drop h).take L) ∧ d = h + L := by
  constructor
  · intro hcause
    cases hcause with
    | checksum hopens hpasses hcs hne => exact ⟨_, _, _, hopens, hpasses, hcs, hne, rfl⟩
  · rintro ⟨h, L, cs, hopens, hpasses, hcs, hne, rfl⟩
    exact .checksum hopens hpasses hcs hne

end Causes

/-- Settles O47: an error verdict is its cause (`parse_eq_err_iff`), and the causes are sorted by kind. -/
theorem errorsHaveExactlyTheirCauses : Obligations.ErrorsHaveExactlyTheirCauses :=
  fun _ _ _ =>
    ⟨parse_eq_err_iff.trans errorCause_invalidStartCharacter_iff,
      parse_eq_err_iff.trans errorCause_invalidFormat_iff,
      parse_eq_err_iff.trans errorCause_checksumMismatch_iff⟩

/-! ## What an event writes -/

/-- Only the front entry of the queue can hold a byte (log 1). -/
theorem exists_inputs_eq_cons_of_fetch_byte {s : State} {b : Byte} (hfetch : s.fetch.1 = .byte b) :
    ∃ p rest, s.inputs = p :: rest ∧ p.select = .byte b := by
  cases hin : s.inputs with
  | nil => rw [State.fetch_of_nil s hin] at hfetch; cases hfetch
  | cons p rest => rw [State.fetch_of_cons s hin] at hfetch; exact ⟨p, rest, rfl, hfetch⟩

/-- R226, R230: of the four inputs only an accepted byte gives an event, and its reaction is the end of the attempt. -/
theorem step_cases_of_event {s s' : State} {e : Event} (hstep : step s = .next s') (hev : s'.ev = some e) :
    ∃ b, s.fetch.1 = .byte b ∧ s' = s.fetch.2.commit (s.regs.endAttempt, some e) := by
  obtain ⟨-, rfl⟩ | ⟨-, ⟨-, rfl⟩ | ⟨-, rfl⟩ | ⟨b, hfetch, rfl⟩⟩ := step_cases hstep
  · cases hev
  · cases hev
  · cases hev
  · obtain ⟨e', hreaction⟩ | ⟨r', hreaction, -⟩ := acceptRegs_event_or_move s.controlTable b s.regs
    · rw [hreaction] at hev ⊢
      cases hev
      exact ⟨b, hfetch, rfl⟩
    · rw [hreaction] at hev
      cases hev

/-- Settles O27: the step of an event takes one byte off the queue and commits the end of the attempt (R41). -/
theorem eventWritesOnlyStateAndPosition : Obligations.EventWritesOnlyStateAndPosition := by
  intro s s' e hstep hev
  obtain ⟨b, hfetch, rfl⟩ := step_cases_of_event hstep hev
  obtain ⟨p, rest, hin, hselect⟩ := exists_inputs_eq_cons_of_fetch_byte hfetch
  refine ⟨⟨p, rest, b, hin, hselect, ?_⟩, rfl, ?_⟩
  · rw [State.commit_inputs, State.fetch_inputs, hin, List.tail_cons]
  · rw [State.commit_wasReset, State.fetch_wasReset]

/-! ## The codes on `ev_err` -/

/-- The error kind that an event carries, if it is an error (R221). -/
def Event.errorKind? : Event → Option ErrorKind
  | .ok _ _ => none
  | .err e _ => some e

/-- R34: `ev_err` carries the code of an error event, and nothing in any other step. -/
@[simp] theorem Outputs.of_evErr (t : ControlTable) (r : Regs) (ev : Option Event) :
    (Outputs.of t r ev).evErr = (ev.bind Event.errorKind?).map evErrOf := by
  rcases ev with _ | ⟨_ | _ | _ | _, _⟩ | _ <;> rfl

theorem evErrOf_ne_three (e : ErrorKind) : evErrOf e ≠ 3 := by
  cases e <;> decide

/-- Settles O31: `ev_err` shows codes of error kinds only, and no kind has code 3. -/
theorem errorCodes : Obligations.ErrorCodes := by
  refine ⟨rfl, rfl, rfl, fun s hthree => ?_⟩
  rw [State.ports, Outputs.of_evErr, Option.map_eq_some_iff] at hthree
  obtain ⟨e, -, he⟩ := hthree
  exact evErrOf_ne_three e he

end Sys2Proof.Machine
end

section
/-! PROOFS of the family 70_reset_and_hazards.md: the reset step, a byte beside reset or abort, and the machine before its
first reset. -/
namespace Sys2Proof.Machine

section ResetAndAbort
variable {s s' : State} {p q : Ports} {rest : List Ports}

/-- R250: a reset step needs no earlier reset. -/
theorem step_of_rst (hin : s.inputs = p :: rest) (hrst : p.rst = true) :
    step s = .next { s with inputs := rest }.doReset := by
  have hfetch : s.fetch = (.reset, { s with inputs := rest }) := by
    rw [State.fetch_of_cons s hin, Ports.select_of_rst hrst]
  rw [step_of_reset (congrArg Prod.fst hfetch), hfetch]

/-- A step reads its state only through `State.fetch`. -/
theorem step_eq_of_fetch_eq (h : s.fetch = s'.fetch) : step s = step s' := by
  have htable : s.controlTable = s'.controlTable := by
    rw [← State.fetch_controlTable s, h, State.fetch_controlTable]
  simp only [step, h, htable]

/-- R180: of the ports in front of the queue, a step sees only which input they select. -/
theorem step_eq_of_select_eq (hin : s.inputs = p :: rest) (hselect : p.select = q.select) :
    step s = step { s with inputs := q :: rest } := by
  apply step_eq_of_fetch_eq
  rw [State.fetch_of_cons s hin, hselect, State.fetch_of_cons { s with inputs := q :: rest } rfl]

theorem Ports.select_of_rst_or_abort (h : p.rst = true ∨ p.abort = true) :
    p.select = if p.rst then .reset else .abort := by
  cases hrst : p.rst with
  | true => exact Ports.select_of_rst hrst
  | false => exact Ports.select_of_abort hrst (h.resolve_left (by simp [hrst]))

theorem Ports.select_ne_reset (hrst : p.rst = false) : p.select ≠ .reset := by
  cases habort : p.abort with
  | true => rw [Ports.select_of_abort hrst habort]; nofun
  | false =>
    cases hvalid : p.inValid with
    | true => rw [Ports.select_of_inValid hrst habort hvalid]; nofun
    | false => rw [Ports.select_of_pause hrst habort hvalid]; nofun

/-- R194, R250: neither a reset nor an abort reports anything. -/
theorem fsmStep_event_of_rst_or_abort (t : ControlTable) (r : Regs) (h : p.rst = true ∨ p.abort = true) :
    (fsmStep t r p.select).2 = none := by
  rw [Ports.select_of_rst_or_abort h]
  cases p.rst <;> rfl

/-- R251: before the first reset a queued entry without `rst` is refused. -/
theorem step_before_reset_of_cons (hw : s.wasReset = false) (hin : s.inputs = p :: rest) (hrst : p.rst = false) :
    step s = .refused .beforeReset := by
  apply step_before_reset hw
  rw [State.fetch_of_cons s hin]
  exact Ports.select_ne_reset hrst

theorem step_before_reset_of_nil (hw : s.wasReset = false) (hin : s.inputs = []) :
    step s = .refused .beforeReset := by
  apply step_before_reset hw
  rw [State.fetch_of_nil s hin]
  nofun

theorem exec_before_reset (i : Instr) (hw : s.wasReset = false) : exec i s = .refused .beforeReset := by
  rw [exec_eq_acceptByte, acceptByte_of_not_wasReset hw]

end ResetAndAbort

/-- Settles O1: the values written out are those of `Regs.reset`, which a reset step puts in, and registers at reset track
the empty attempt, so their status is what `Parse` answers for it (R200 (c)). -/
theorem resetStepSetsEveryRegister : Obligations.ResetStepSetsEveryRegister := by
  intro s p rest hin hrst
  obtain ⟨-, -, hbusy, hneedK⟩ := resetStateValues
  exact ⟨step_of_rst hin hrst, hbusy, hneedK, (Regs.tracks_nil rfl rfl).parse_eq⟩

/-- Settles O7: with `rst` or `abort` the byte's ports do not change which input is selected, and it reports nothing. -/
theorem byteBesideAbortOrResetIsLost : Obligations.ByteBesideAbortOrResetIsLost := by
  intro s p rest v b hin h
  have hselect : p.select = { p with inValid := v, inByte := b }.select := by
    rw [Ports.select_of_rst_or_abort h, Ports.select_of_rst_or_abort (p := { p with inValid := v, inByte := b }) h]
  refine ⟨step_eq_of_select_eq hin hselect, ?_, ?_⟩
  · rw [State.ports, Outputs.of_inReady]
  · rw [State.ports, Outputs.of_evValid, State.fetch_of_cons s hin, fsmStep_event_of_rst_or_abort _ _ h, ite_self,
      Option.isSome_none]

/-- Settles O8: every input but a reset is refused (`step_before_reset`), and a reset step asks for no earlier reset. -/
theorem noByteBeforeReset : Obligations.NoByteBeforeReset :=
  ⟨rfl, fun _ hw =>
    ⟨fun i => exec_before_reset i hw,
      fun _ _ hin => step_before_reset_of_cons hw hin rfl,
      fun _ _ hin hrst => step_before_reset_of_cons hw hin hrst,
      fun hin => step_before_reset_of_nil hw hin,
      fun _ _ hin hrst => step_of_rst hin hrst⟩⟩

end Sys2Proof.Machine
end
